-- ==== Sys2Proof/Word.lean ====
section
/-! DEFINITION. The two value types of the block: a byte and a 16-bit signed sample (spec 00_scope.md R7, 30_encoding.md R61, R62). -/

namespace Sys2Proof

/-- A byte: 8 bits, unsigned value in [0, 255] (30_encoding.md R61). -/
abbrev Byte := BitVec 8

/-- A sample: the 16-bit field `u[15:0]` of 30_encoding.md R62. Its value, the spec's `Int16`, is the
two's-complement reading `BitVec.toInt` (R62: "The sample's value is `sext_16(u)`"). -/
abbrev Sample := BitVec 16

end Sys2Proof
end

