-- ==== Sys2Proof/Config.lean ====
section
/-! DEFINITION. The parameters of the block (00_scope.md R5): the hardwired constants, and the record of the parameters a model
takes as configuration or as arguments (FW, ATTEN, FP_FORMAT, FP_ROUNDING, MAX_BYTES). -/

namespace Sys2Proof

/-- FP_FORMAT (00_scope.md R5, decision D8): OPEN between the two. -/
inductive FpFormat where
  | binary32
  | binary64
deriving DecidableEq, Repr

/-- The rounding modes 43_sample_mixer.md R147 speaks of. FP_ROUNDING is `nearestEven` (decision D8). -/
inductive Rounding where
  | nearestEven
  | nearestAway
  | towardZero
  | towardPositive
  | towardNegative
deriving DecidableEq, Repr

/-- A literal of the arithmetic, exactly as the spec writes it in decimal: the number `num / den`. -/
structure Literal where
  num : Int
  den : Nat
deriving DecidableEq, Repr

/-- NORM_SCALE = 32768.0 (R5). -/
def Config.normScale : Literal := ⟨32768, 1⟩

/-- RESCALE = 32768.0 (R5). -/
def Config.rescale : Literal := ⟨32768, 1⟩

/-- CLIP_LO = -1.0 (R5). -/
def Config.clipLo : Literal := ⟨-1, 1⟩

/-- CLIP_HI = 1.0 (R5). -/
def Config.clipHi : Literal := ⟨1, 1⟩

/-- BYTES_PER_SAMPLE = 2 (R5). -/
def Config.bytesPerSample : Nat := 2

/-- SAMPLES_PER_FRAME = 4 (R5). -/
def Config.samplesPerFrame : Nat := 4

/-- NUM_CHANNELS = 1, the only value a model admits (R4, R5, 93_implementation_defined.md). -/
def Config.numChannels : Nat := 1

/-- The parameters of 00_scope.md R5 that have a default or are OPEN. They are fixed for the machine: State holds them in one
field and no step changes it (10_state.md R29; log 8). -/
structure Config where
  /-- FW, the frame width in samples (R5, R6). -/
  fw : Nat
  /-- ATTEN, the attenuation literal (R5). -/
  atten : Literal
  /-- FP_FORMAT, OPEN (R5). -/
  fpFormat : FpFormat
  /-- FP_ROUNDING (R5). -/
  fpRounding : Rounding
  /-- MAX_BYTES, OPEN (R5). -/
  maxBytes : Nat
deriving DecidableEq, Repr

/-- The values of R5: FW = SAMPLES_PER_FRAME * NUM_CHANNELS = 4, ATTEN = 0.9, round to nearest even.
DESIGN CHOICE (logs 6 and 7): the two OPEN parameters are binary64 and 1048576 bytes. -/
def Config.standard : Config where
  fw := Config.samplesPerFrame * Config.numChannels
  atten := ⟨9, 10⟩
  fpFormat := .binary64
  fpRounding := .nearestEven
  maxBytes := 1048576

/-- The integer a machine takes from a value that has no integer part (a NaN): "the integer part of `x`" (00_scope.md R9) names
none. A free value, with no body: nothing can be proved of it but that one machine, with one format, rounding mode and ATTEN, always
takes the same (44_driver.md R168: no step draws a value). DESIGN CHOICE (log 25). -/
opaque Config.truncOfNoInteger : FpFormat → Rounding → Literal → Int

end Sys2Proof
end

