-- ==== Sys2Proof/Syntax.lean ====
section
/-! DEFINITION. The syntax of the block: the nine rows of spec/opcode_table.json, as one inductive. No row has an operand in its byte
(30_encoding.md R67), so no constructor has an argument; operands stand on the data inputs and operand ports of State. -/

namespace Sys2Proof

/-- One constructor per row of the opcode table (30_encoding.md R66, R68). -/
inductive Instr where
  /-- MIX, host command (44_driver.md R161). -/
  | mix
  /-- COLLECT, host command (44_driver.md R166). -/
  | collect
  /-- DEC16, internal operation (40_codec.md R100). -/
  | dec16
  /-- ENC16, internal operation (40_codec.md R101). -/
  | enc16
  /-- DECODE, internal operation (40_codec.md R104). -/
  | decode
  /-- ENCODE, internal operation (40_codec.md R106). -/
  | encode
  /-- RECONCILE, internal operation (41_reconciler.md R120). -/
  | reconcile
  /-- FRAME_MIX, internal operation (42_frame_mixer.md R131). -/
  | frameMix
  /-- SAMPLE_MIX, internal operation (43_sample_mixer.md R140). -/
  | sampleMix
deriving DecidableEq, Repr

/-- The host commands of R66; the others are internal operations, which "the host cannot issue". -/
def Instr.isHostCommand : Instr → Bool
  | .mix => true
  | .collect => true
  | .dec16 => false
  | .enc16 => false
  | .decode => false
  | .encode => false
  | .reconcile => false
  | .frameMix => false
  | .sampleMix => false

end Sys2Proof
end

