-- ==== Sys2Proof/WellFormed.lean ====
section
/-! DEFINITION. What is well-formed: every instruction (no constructor has an operand that could be out of range, 30_encoding.md
R67), and a configuration with a frame width of at least 1 (00_scope.md R6) and an attenuation literal with a denominator. -/

namespace Sys2Proof

/-- Every instruction is one whole byte with no field (30_encoding.md R67, R70), so none can be ill-formed. -/
def Instr.wellFormed : Instr → Bool
  | .mix => true
  | .collect => true
  | .dec16 => true
  | .enc16 => true
  | .decode => true
  | .encode => true
  | .reconcile => true
  | .frameMix => true
  | .sampleMix => true

/-- A literal has a denominator (it is a number). -/
def Literal.wellFormed (c : Literal) : Bool := decide (1 ≤ c.den)

/-- "`FW` is at least 1" (00_scope.md R6), and ATTEN is a number. -/
def Config.wellFormed (c : Config) : Bool := decide (1 ≤ c.fw) && c.atten.wellFormed

end Sys2Proof
end

