-- ==== Sys2Proof/Decode.lean ====
section
/-! DEFINITION. The command byte (30_encoding.md R66 to R70): the decoder, total on any bytes and rejecting by name, then the encoder,
written from the same table. -/

namespace Sys2Proof

/-- Why bytes decode to no instruction. -/
inductive DecodeReject where
  /-- There is no byte to read. -/
  | noByte
  /-- A reserved code: 0x00, 0x03 to 0x7F, 0x87 to 0xFF (30_encoding.md R69, `UnknownCommand`). -/
  | unknownCommand
deriving DecidableEq, Repr

/-- "A decoder matches the whole byte: every row's mask is 0xFF" (30_encoding.md R66). -/
def decodeByte (c : Byte) : Except DecodeReject Instr :=
  if c = 0x01#8 then .ok .mix
  else if c = 0x02#8 then .ok .collect
  else if c = 0x80#8 then .ok .dec16
  else if c = 0x81#8 then .ok .enc16
  else if c = 0x82#8 then .ok .decode
  else if c = 0x83#8 then .ok .encode
  else if c = 0x84#8 then .ok .reconcile
  else if c = 0x85#8 then .ok .frameMix
  else if c = 0x86#8 then .ok .sampleMix
  else .error .unknownCommand

/-- "A decoder always reads one byte" (30_encoding.md R70): the instruction and the bytes after it. -/
def decode : List Byte → Except DecodeReject (Instr × List Byte)
  | [] => .error .noByte
  | c :: rest =>
    match decodeByte c with
    | .ok i => .ok (i, rest)
    | .error r => .error r

/-- The code of an instruction, from the table of 30_encoding.md R66. -/
def encodeByte : Instr → Byte
  | .mix => 0x01#8
  | .collect => 0x02#8
  | .dec16 => 0x80#8
  | .enc16 => 0x81#8
  | .decode => 0x82#8
  | .encode => 0x83#8
  | .reconcile => 0x84#8
  | .frameMix => 0x85#8
  | .sampleMix => 0x86#8

/-- The bytes of an instruction: "Every command is exactly one byte" (30_encoding.md R70). -/
def encode (i : Instr) : List Byte := [encodeByte i]

/-- The bytes of a table word: byte `k` is bits `8k+7` down to `8k`, the first byte the lowest. -/
def tableBytes : Nat → Nat → List Byte
  | 0, _ => []
  | n + 1, w => BitVec.ofNat 8 w :: tableBytes n (w / 256)

/-- The instruction the decoder reads from a word of the opcode table (the host's interface). -/
def decodeTableWord (nbits w : Nat) : Option Instr :=
  match decode (tableBytes (nbits / 8) w) with
  | .ok (i, _) => some i
  | .error _ => none

end Sys2Proof
end

