-- ==== Sys2Proof/Machine/State.lean ====
section
/-! DEFINITION. The state of the block and of its environment (10_state.md R20 to R32), the phases, the events of the environment, the
faults, refusals and marks, and the state after reset. -/

namespace Sys2Proof.Machine

/-- The six named values of PHASE (10_state.md R21). -/
inductive Phase where
  | idle
  | decode
  | reconcile
  | frames
  | encode
  | done
deriving DecidableEq, Repr

/-- The encodings of 10_state.md R21. -/
def Phase.bits : Phase → BitVec 3
  | .idle => 0b000#3
  | .decode => 0b001#3
  | .reconcile => 0b010#3
  | .frames => 0b011#3
  | .encode => 0b100#3
  | .done => 0b101#3

/-- The reading of PHASE; 0b110 and 0b111 are reserved (10_state.md R21, 70_reset_and_hazards.md R224). -/
def Phase.ofBits (b : BitVec 3) : Option Phase :=
  if b = 0b000#3 then some .idle
  else if b = 0b001#3 then some .decode
  else if b = 0b010#3 then some .reconcile
  else if b = 0b011#3 then some .frames
  else if b = 0b100#3 then some .encode
  else if b = 0b101#3 then some .done
  else none

/-- A refusal the model records for the run (60_exceptions.md R202). It changes no state of the block; the run goes on with
the next thing its script holds (95_test_vectors.md P5; log 3). -/
inductive Mark where
  /-- The command byte is reserved (30_encoding.md R69). -/
  | unknownCommand
  /-- The host issued an internal operation id (30_encoding.md R69). -/
  | internalOperation
  /-- MIX outside IDLE (44_driver.md R161). -/
  | callInProgress
  /-- MIX with an input longer than MAX_BYTES (44_driver.md R161). -/
  | inputTooLong
  /-- COLLECT in IDLE (44_driver.md R166). -/
  | noCallInProgress
  /-- FRAME_MIX with a frame index `i >= NF` (42_frame_mixer.md R131). -/
  | frameOutOfRange
deriving DecidableEq, Repr

/-- Why the machine stops. The block itself raises no exception (60_exceptions.md R200); these are model outcomes. -/
inductive Fault where
  /-- `fault ReadUnwritten`: a read of a ⊥ element (10_state.md R24, 40_codec.md R106). Raised by ENCODE on a sequence with
  ⊥. Safe: the spec names no value. -/
  | readUnwritten
  /-- An access outside a buffer, which "no rule of the spec" makes (00_scope.md R11). Raised by FRAME_MIX, the frame step and
  the ENCODE step in states whose NF does not fit their buffers, which no run reaches. Safe (log 13). -/
  | indexOutOfRange
deriving DecidableEq, Repr

/-- Why a step or an instruction is given no meaning. -/
inductive Refusal where
  /-- An instruction the model has no meaning for. Raised by exec's arms only. Safe. -/
  | notModelled (mnemonic : String)
  /-- `refuse ReservedPhase`: PHASE is 0b110 or 0b111 (70_reset_and_hazards.md R224). Raised by the step, MIX and COLLECT.
  Safe: no run reaches it. -/
  | reservedPhase
  /-- PHASE is FRAMES and FI > NF, so neither step of 44_driver.md R164 is enabled. Raised by the frame step. Safe: no run
  reaches it (log 14). -/
  | frameOutOfRange
deriving DecidableEq, Repr

/-- The operands of an internal operation that the model issues alone (30_encoding.md R67, R71; log 11). -/
structure OpIn where
  /-- DEC16's byte stored first. -/
  lo : Byte
  /-- DEC16's byte stored second. -/
  hi : Byte
  /-- ENC16's sample. -/
  s : Sample
  /-- SAMPLE_MIX's first sample. -/
  s1 : Sample
  /-- SAMPLE_MIX's second sample. -/
  s2 : Sample
  /-- DECODE's byte buffer. -/
  buf : List Byte
  /-- ENCODE's sample sequence; `none` is ⊥. -/
  seq : List (Option Sample)
  /-- RECONCILE's first sequence. -/
  x1 : List Sample
  /-- RECONCILE's second sequence. -/
  x2 : List Sample
  /-- FRAME_MIX's frame index. -/
  i : Nat
deriving DecidableEq, Repr

/-- The results of an internal operation that the model issues alone (log 11). -/
structure OpOut where
  /-- The result of DEC16 and of SAMPLE_MIX. -/
  sample : Sample
  /-- ENC16's byte stored first. -/
  lo : Byte
  /-- ENC16's byte stored second. -/
  hi : Byte
  /-- DECODE's result. -/
  samples : List Sample
  /-- ENCODE's result. -/
  bytes : List Byte
  /-- RECONCILE's first result. -/
  y1 : List Sample
  /-- RECONCILE's second result. -/
  y2 : List Sample
deriving DecidableEq, Repr

/-- One thing the environment does (30_encoding.md R71, 44_driver.md R170; log 1). -/
inductive Event where
  /-- The host issues a command byte; MIX takes its operands from the data inputs. -/
  | command (cmd : Byte)
  /-- The host writes the buffer on data input 0. -/
  | writeA (buf : List Byte)
  /-- The host writes the buffer on data input 1. -/
  | writeB (buf : List Byte)
  /-- The host reads STATUS (`status -> v`). -/
  | readStatus
  /-- The host step that holds until STATUS.DONE = 1 (`wait`). -/
  | wait
  /-- The host asserts reset, perhaps with a command in the same instant (60_exceptions.md R204(a)). -/
  | reset (sameInstant : Option Byte)
  /-- A turn of the block. -/
  | block
  /-- The model sets the operands of an internal operation (log 11). -/
  | operands (ops : OpIn)
  /-- The model, not the host, issues the internal operation of this id (30_encoding.md R66; log 12). -/
  | internal (id : Byte)
deriving DecidableEq, Repr

/-- What the host gets back (44_driver.md R170). -/
inductive Reply where
  /-- The byte buffer `Y` of a COLLECT (R166). -/
  | collected (y : List Byte)
  /-- The value of a STATUS read (10_state.md R27). -/
  | status (v : Byte)
deriving DecidableEq, Repr

/-- All the state: the spec's own (10_state.md R21 to R26), its interface, its parameters, and the model's own fields
(INVENTORY.md lists each). -/
structure State where
  /-- The parameters of 00_scope.md R5; no step changes them (10_state.md R29; log 8). -/
  cfg : Config
  /-- PHASE (R21). -/
  phase : BitVec 3
  /-- A_IN (R22). -/
  aIn : List Byte
  /-- B_IN (R22). -/
  bIn : List Byte
  /-- X1 (R23). -/
  x1 : List Sample
  /-- X2 (R23). -/
  x2 : List Sample
  /-- YW; `none` is ⊥ (R24). -/
  yw : List (Option Sample)
  /-- L (R25). -/
  l : Nat
  /-- NF (R25). -/
  nf : Nat
  /-- FI (R25). -/
  fi : Nat
  /-- Y_OUT (R26). -/
  yOut : List Byte
  /-- Data input 0: the host's buffer A (30_encoding.md R67). -/
  dinA : List Byte
  /-- Data input 1: the host's buffer B (30_encoding.md R67). -/
  dinB : List Byte
  /-- The model's own: operands of an internal operation issued alone (log 11). -/
  opIn : OpIn
  /-- The model's own: results of an internal operation issued alone (log 11). -/
  opOut : OpOut
  /-- The model's own: what the environment does from here on, oldest first (log 1). -/
  script : List Event
  /-- What the host got back, oldest first (log 19). -/
  replies : List Reply
  /-- The refusals recorded for the run, oldest first (60_exceptions.md R202). -/
  marks : List Mark
deriving DecidableEq, Repr

/-- The operand port after reset. DESIGN CHOICE (log 11): zeros and empty sequences. -/
def OpIn.reset : OpIn where
  lo := 0
  hi := 0
  s := 0
  s1 := 0
  s2 := 0
  buf := []
  seq := []
  x1 := []
  x2 := []
  i := 0

/-- The result port after reset. DESIGN CHOICE (log 11): zeros and empty sequences. -/
def OpOut.reset : OpOut where
  sample := 0
  lo := 0
  hi := 0
  samples := []
  bytes := []
  y1 := []
  y2 := []

/-- The state after reset and at power-on: the values of 10_state.md R32 (70_reset_and_hazards.md R220, R222); for the host's
side and the model's own fields, nothing (DESIGN CHOICE, logs 11 and 17); the parameters of `Config.standard`. -/
def State.reset : State where
  cfg := Config.standard
  phase := Phase.idle.bits
  aIn := []
  bIn := []
  x1 := []
  x2 := []
  yw := []
  l := 0
  nf := 0
  fi := 0
  yOut := []
  dinA := []
  dinB := []
  opIn := OpIn.reset
  opOut := OpOut.reset
  script := []
  replies := []
  marks := []

end Sys2Proof.Machine
end

