-- ==== Sys2Proof/Machine/Ops.lean ====
section
/-! DEFINITION. The named operations over buffers and registers: MemRead and MemWrite (00_scope.md R11), the sequence and integer
primitives of R8 to R10, and the updates of State that the rules share. The block raises no exception and has no trap to return from
(60_exceptions.md R200, R205, R206), so there is no operation that takes one; what a rule writes `refuse <Reason>` is `State.refuse`. -/

namespace Sys2Proof.Machine

/-- `MemRead(buf, i, n)` = `buf[i..i+n)`, "defined only when `i + n <= |buf|`" (00_scope.md R11). -/
def memRead {α : Type} (buf : List α) (i n : Nat) : Option (List α) :=
  if i + n ≤ buf.length then some ((buf.drop i).take n) else none

/-- `MemWrite(buf, i, |v|, v)` (00_scope.md R11), under the same bound. -/
def memWrite {α : Type} (buf : List α) (i : Nat) (v : List α) : Option (List α) :=
  if i + v.length ≤ buf.length then some (buf.take i ++ v ++ buf.drop (i + v.length)) else none

/-- `clamp(v, lo, hi)` (00_scope.md R9). -/
def clampInt (v lo hi : Int) : Int := if v < lo then lo else if v > hi then hi else v

/-- `tquot(a, b)`: the quotient rounded toward zero (00_scope.md R9). -/
def tquot (a b : Int) : Int := a.tdiv b

/-- `sext_16(u)` (00_scope.md R10). -/
def sext16 (u : Nat) : Int := if u < 32768 then (u : Int) else (u : Int) - 65536

/-- `zext_16(v)` (00_scope.md R10). -/
def zext16 (v : Int) : Nat := if 0 ≤ v then v.toNat else (v + 65536).toNat

/-- `refuse <Reason>`: nothing of the block changes and the mark is kept for the run (30_encoding.md R69, 60_exceptions.md R202;
log 3). -/
def State.refuse (s : State) (m : Mark) : State := { s with marks := s.marks ++ [m] }

/-- The host gets something back (44_driver.md R170; log 19). -/
def State.reply (s : State) (r : Reply) : State := { s with replies := s.replies ++ [r] }

/-- `PHASE <- p`, which "takes the place of `pc <- target`" (00_scope.md R11). -/
def State.setPhase (s : State) (p : Phase) : State := { s with phase := p.bits }

/-- The environment's list from here on. -/
def State.setScript (s : State) (es : List Event) : State := { s with script := es }

/-- The result of an internal operation issued alone (log 11). -/
def State.setOpOut (s : State) (o : OpOut) : State := { s with opOut := o }

/-- `YW <- yw`. -/
def State.setYw (s : State) (yw : List (Option Sample)) : State := { s with yw := yw }

/-- MIX's capture: `A_IN <- copy of A`, `B_IN <- copy of B`, `Y_OUT <- []` (44_driver.md R161, 20_memory.md R50). -/
def State.capture (s : State) : State := { s with aIn := s.dinA, bIn := s.dinB, yOut := [] }

/-- Every element of the block's state to its reset and idle value (10_state.md R32): what reset does (70_reset_and_hazards.md
R220) and what COLLECT leaves (44_driver.md R166). The host's side, the parameters and the model's own fields stay (log 17). -/
def State.idle (s : State) : State :=
  { s with phase := Phase.idle.bits, aIn := [], bIn := [], x1 := [], x2 := [], yw := [], l := 0, nf := 0, fi := 0, yOut := [] }

end Sys2Proof.Machine
end

