-- ==== Sys2Proof/Machine/Operands.lean ====
section
/-! DEFINITION. Operand assembly: bytes to samples and back (30_encoding.md R62, R63; 40_codec.md R100 to R106), for one sample and for
whole buffers. -/

namespace Sys2Proof.Machine

/-- `(hi << 8) | lo` as a 16-bit field, read as `sext_16` (30_encoding.md R63, 40_codec.md R100). -/
def dec16 (lo hi : Byte) : Sample := (hi.zeroExtend 16 <<< 8) ||| lo.zeroExtend 16

/-- `(u[7:0], u[15:8])`, the first byte stored first (40_codec.md R101). -/
def enc16 (s : Sample) : Byte × Byte := (s.extractLsb' 0 8, s.extractLsb' 8 8)

/-- `decode(buf)` (40_codec.md R103): consecutive pairs of bytes, least significant first; "any odd trailing byte is dropped by
truncation" (30_encoding.md R64). -/
def decodeBuf : List Byte → List Sample
  | lo :: hi :: rest => dec16 lo hi :: decodeBuf rest
  | [_] => []
  | [] => []

/-- `encode(s)` (40_codec.md R105): each sample's two bytes, "concatenated in order". -/
def encodeSeq : List Sample → List Byte
  | [] => []
  | s :: rest => (enc16 s).1 :: (enc16 s).2 :: encodeSeq rest

/-- The samples of a sequence none of whose elements is ⊥ (40_codec.md R106); `none` where one is. -/
def written : List (Option Sample) → Option (List Sample)
  | [] => some []
  | none :: _ => none
  | some s :: rest =>
    match written rest with
    | some ss => some (s :: ss)
    | none => none

end Sys2Proof.Machine
end

