-- ==== Sys2Proof/Machine/Codec.lean ====
section
/-! DEFINITION. The Byte↔Sample Codec (40_codec.md): the meanings of DEC16, ENC16, DECODE and ENCODE. -/

namespace Sys2Proof.Machine

/-- DEC16 (40_codec.md R100) on the operands `lo` and `hi`. -/
def execDec16 (s : State) : Host.Outcome State Fault Refusal :=
  .next (s.setOpOut { s.opOut with sample := dec16 s.opIn.lo s.opIn.hi })

/-- ENC16 (40_codec.md R101) on the operand `s`. -/
def execEnc16 (s : State) : Host.Outcome State Fault Refusal :=
  .next (s.setOpOut { s.opOut with lo := (enc16 s.opIn.s).1, hi := (enc16 s.opIn.s).2 })

/-- DECODE (40_codec.md R104) on the operand `buf`. -/
def execDecode (s : State) : Host.Outcome State Fault Refusal :=
  .next (s.setOpOut { s.opOut with samples := decodeBuf s.opIn.buf })

/-- ENCODE (40_codec.md R106) on the operand `seq`: "If an element of `s` were `⊥`, a model must fault". -/
def execEncode (s : State) : Host.Outcome State Fault Refusal :=
  match written s.opIn.seq with
  | some ss => .next (s.setOpOut { s.opOut with bytes := encodeSeq ss })
  | none => .fault .readUnwritten

end Sys2Proof.Machine
end

