-- ==== Sys2Proof/Machine/Flags.lean ====
section
/-! DEFINITION. The block has no condition flags and clipping is silent (10_state.md R28, R30). What it has is the STATUS view
(10_state.md R27), computed from PHASE. -/

namespace Sys2Proof.Machine

/-- BUSY: PHASE is DECODE, RECONCILE, FRAMES or ENCODE (10_state.md R27). -/
def State.busy (s : State) : Bool :=
  match Phase.ofBits s.phase with
  | some .idle => false
  | some .decode => true
  | some .reconcile => true
  | some .frames => true
  | some .encode => true
  | some .done => false
  | none => false

/-- DONE: PHASE is DONE (10_state.md R27). -/
def State.isDone (s : State) : Bool := s.phase == Phase.done.bits

/-- STATUS: bit 0 is BUSY, bit 1 is DONE, bits 7:2 are hardwired to 0 (10_state.md R27). -/
def State.status (s : State) : Byte := 0#6 ++ BitVec.ofBool s.isDone ++ BitVec.ofBool s.busy

end Sys2Proof.Machine
end

