-- ==== Sys2Proof/Machine/Float.lean ====
section
/-! DEFINITION. The floating-point arithmetic of SAMPLE_MIX (00_scope.md R9): the values of FP_FORMAT, the conversion `fp(c)`, and IEEE-754
addition, multiplication, division and comparison, each the exact result rounded once under FP_ROUNDING, with both zeros, both
infinities and NaN. What of IEEE-754 the spec does not write out is in log 9. -/

namespace Sys2Proof.Machine

/-- The significand width of the format (43_sample_mixer.md R141: 24 and 53 bits). -/
def fpPrecision : FpFormat → Nat
  | .binary32 => 24
  | .binary64 => 53

/-- The exponent of the smallest normal number (R141: "normal numbers down to 2^-126 or lower"; log 9). -/
def fpMinExp : FpFormat → Int
  | .binary32 => -126
  | .binary64 => -1022

/-- The exponent of the largest finite numbers (log 9). -/
def fpMaxExp : FpFormat → Int
  | .binary32 => 127
  | .binary64 => 1023

/-- A floating-point value: a finite one is `mag * 2^exp` with a sign, so that there are two zeros. NaN has no payload (log 9). -/
inductive Fp where
  | fin (neg : Bool) (mag : Nat) (exp : Int)
  | inf (neg : Bool)
  | nan
deriving DecidableEq, Repr

/-- A finite value. -/
def Fp.isFinite : Fp → Bool
  | .fin _ _ _ => true
  | .inf _ => false
  | .nan => false

/-- The numerator of the magnitude of a finite value. -/
def Fp.absNum : Fp → Nat
  | .fin _ mag exp => mag * 2 ^ exp.toNat
  | .inf _ => 0
  | .nan => 0

/-- The numerator of a finite value: the value is `x.num / x.den`. -/
def Fp.num : Fp → Int
  | .fin neg mag exp => if neg then -((mag * 2 ^ exp.toNat : Nat) : Int) else ((mag * 2 ^ exp.toNat : Nat) : Int)
  | .inf _ => 0
  | .nan => 0

/-- The denominator of a finite value, a power of two. -/
def Fp.den : Fp → Nat
  | .fin _ _ exp => 2 ^ (-exp).toNat
  | .inf _ => 1
  | .nan => 1

/-- The exponent `e` with `2^e <= a/d < 2^(e+1)`, for `a` and `d` above 0. -/
def ratioExp (a d : Nat) : Int :=
  let e : Int := (a.log2 : Int) - (d.log2 : Int)
  if a * 2 ^ (-e).toNat < d * 2 ^ e.toNat then e - 1 else e

/-- The weight of the last significand bit of a value with exponent `e` (gradual underflow below the smallest normal number). -/
def quantumExp (fmt : FpFormat) (e : Int) : Int := max e (fpMinExp fmt) - (fpPrecision fmt - 1)

/-- Whether the magnitude `m + r/d` is rounded up to `m + 1` (`0 <= r < d`), `neg` saying that the value is negative. -/
def roundsUp (mode : Rounding) (neg : Bool) (m r d : Nat) : Bool :=
  match mode with
  | .nearestEven => decide (2 * r > d) || (decide (2 * r = d) && m % 2 == 1)
  | .nearestAway => decide (2 * r ≥ d)
  | .towardZero => false
  | .towardPositive => decide (r > 0) && !neg
  | .towardNegative => decide (r > 0) && neg

/-- Whether the rounded magnitude `m * 2^q` lies beyond the largest finite number of the format. -/
def overflows (fmt : FpFormat) (m : Nat) (q : Int) : Bool :=
  let top := fpMaxExp fmt - (fpPrecision fmt - 1)
  decide (top < q) || (decide (q = top) && decide (2 ^ fpPrecision fmt ≤ m))

/-- The largest finite number of the format, with a sign. -/
def fpLargest (fmt : FpFormat) (neg : Bool) : Fp :=
  .fin neg (2 ^ fpPrecision fmt - 1) (fpMaxExp fmt - (fpPrecision fmt - 1))

/-- IEEE-754's result of an overflow: an infinity, or the largest finite number where the mode rounds toward zero (log 9). -/
def overflowResult (fmt : FpFormat) (mode : Rounding) (neg : Bool) : Fp :=
  match mode with
  | .nearestEven => .inf neg
  | .nearestAway => .inf neg
  | .towardZero => fpLargest fmt neg
  | .towardPositive => if neg then fpLargest fmt neg else .inf neg
  | .towardNegative => if neg then .inf neg else fpLargest fmt neg

/-- The number of magnitude `a / d` and sign `neg` rounded once to the format; a magnitude of 0 is the zero of that sign, and a
denominator of 0 counts as that (log 10). -/
def roundMag (fmt : FpFormat) (mode : Rounding) (neg : Bool) (a d : Nat) : Fp :=
  if a = 0 ∨ d = 0 then .fin neg 0 0
  else
    let q := quantumExp fmt (ratioExp a d)
    let top := a * 2 ^ (-q).toNat
    let bot := d * 2 ^ q.toNat
    let m := if roundsUp mode neg (top / bot) (top % bot) bot then top / bot + 1 else top / bot
    if overflows fmt m q then overflowResult fmt mode neg else .fin neg m q

/-- The number `n / d` rounded once to the format; 0 is the positive zero. -/
def roundRatio (fmt : FpFormat) (mode : Rounding) (n : Int) (d : Nat) : Fp := roundMag fmt mode (decide (n < 0)) n.natAbs d

/-- `fp(c)`: the literal converted to FP_FORMAT, "rounded if it is not representable" (00_scope.md R9). -/
def fpLit (cfg : Config) (c : Literal) : Fp := roundRatio cfg.fpFormat cfg.fpRounding c.num c.den

/-- `fp(v)` of an integer (00_scope.md R9). -/
def fpInt (cfg : Config) (v : Int) : Fp := roundRatio cfg.fpFormat cfg.fpRounding v 1

/-- The sign of an exact zero sum of two finite values: the sign they share when both are zeros of one sign, otherwise positive,
but negative under round toward minus infinity (IEEE-754; log 9). -/
def zeroSumNeg (mode : Rounding) (n1 n2 : Bool) (m1 m2 : Nat) : Bool :=
  if m1 = 0 ∧ m2 = 0 ∧ n1 = n2 then n1 else mode == .towardNegative

/-- `x ⊕ y` (00_scope.md R9). -/
def fpAdd (cfg : Config) (x y : Fp) : Fp :=
  match x, y with
  | .nan, _ => .nan
  | _, .nan => .nan
  | .inf n1, .inf n2 => if n1 = n2 then .inf n1 else .nan
  | .inf n1, .fin _ _ _ => .inf n1
  | .fin _ _ _, .inf n2 => .inf n2
  | .fin n1 m1 e1, .fin n2 m2 e2 =>
    let n := (Fp.fin n1 m1 e1).num * (Fp.fin n2 m2 e2).den + (Fp.fin n2 m2 e2).num * (Fp.fin n1 m1 e1).den
    if n = 0 then .fin (zeroSumNeg cfg.fpRounding n1 n2 m1 m2) 0 0
    else roundRatio cfg.fpFormat cfg.fpRounding n ((Fp.fin n1 m1 e1).den * (Fp.fin n2 m2 e2).den)

/-- `x ⊗ y` (00_scope.md R9): a zero times an infinity is NaN. -/
def fpMul (cfg : Config) (x y : Fp) : Fp :=
  match x, y with
  | .nan, _ => .nan
  | _, .nan => .nan
  | .inf n1, .inf n2 => .inf (n1 != n2)
  | .inf n1, .fin n2 m2 _ => if m2 = 0 then .nan else .inf (n1 != n2)
  | .fin n1 m1 _, .inf n2 => if m1 = 0 then .nan else .inf (n1 != n2)
  | .fin n1 m1 e1, .fin n2 m2 e2 =>
    roundMag cfg.fpFormat cfg.fpRounding (n1 != n2) ((Fp.fin n1 m1 e1).absNum * (Fp.fin n2 m2 e2).absNum)
      ((Fp.fin n1 m1 e1).den * (Fp.fin n2 m2 e2).den)

/-- `x ⊘ y` (00_scope.md R9): a finite nonzero value divided by a zero is an infinity, zero by zero and infinity by infinity are
NaN. -/
def fpDiv (cfg : Config) (x y : Fp) : Fp :=
  match x, y with
  | .nan, _ => .nan
  | _, .nan => .nan
  | .inf _, .inf _ => .nan
  | .inf n1, .fin n2 _ _ => .inf (n1 != n2)
  | .fin n1 _ _, .inf n2 => .fin (n1 != n2) 0 0
  | .fin n1 m1 e1, .fin n2 m2 e2 =>
    if m2 = 0 then (if m1 = 0 then .nan else .inf (n1 != n2))
    else
      roundMag cfg.fpFormat cfg.fpRounding (n1 != n2) ((Fp.fin n1 m1 e1).absNum * (Fp.fin n2 m2 e2).den)
        ((Fp.fin n1 m1 e1).den * (Fp.fin n2 m2 e2).absNum)

/-- `x < y`, exact (00_scope.md R9: "A comparison `<` or `>` on floating-point values is exact"); false when either is NaN, and the
two zeros are equal. -/
def fpLt (x y : Fp) : Bool :=
  match x, y with
  | .nan, _ => false
  | _, .nan => false
  | .inf n1, .inf n2 => n1 && !n2
  | .inf n1, .fin _ _ _ => n1
  | .fin _ _ _, .inf n2 => !n2
  | .fin n1 m1 e1, .fin n2 m2 e2 =>
    decide ((Fp.fin n1 m1 e1).num * (Fp.fin n2 m2 e2).den < (Fp.fin n2 m2 e2).num * (Fp.fin n1 m1 e1).den)

/-- `clamp(x, lo, hi)` on floating-point values (00_scope.md R9, 43_sample_mixer.md R144). -/
def fpClamp (x lo hi : Fp) : Fp := if fpLt x lo then lo else if fpLt hi x then hi else x

/-- `trunc(x)`: "the integer part of `x`, rounded toward zero" (00_scope.md R9); a value without one gives the machine's free value
(log 25). -/
def fpTrunc (cfg : Config) (x : Fp) : Int :=
  match x with
  | .fin neg mag exp => (Fp.fin neg mag exp).num.tdiv (Fp.fin neg mag exp).den
  | .inf _ => Config.truncOfNoInteger cfg.fpFormat cfg.fpRounding cfg.atten
  | .nan => Config.truncOfNoInteger cfg.fpFormat cfg.fpRounding cfg.atten

/-- The width of the exponent field of the interchange format (30_encoding.md R72). -/
def fpExpBits : FpFormat → Nat
  | .binary32 => 8
  | .binary64 => 11

/-- The sign bit in place. -/
def fpSignBit (fmt : FpFormat) (neg : Bool) : Nat := if neg then 2 ^ (fpPrecision fmt - 1 + fpExpBits fmt) else 0

/-- The IEEE-754 interchange bits of a value of the format (30_encoding.md R72), as a number: the sign bit, the biased exponent,
the fraction. `none` for NaN, which has many patterns (log 9). -/
def fpBits (fmt : FpFormat) (x : Fp) : Option Nat :=
  let p := fpPrecision fmt
  match x with
  | .nan => none
  | .inf neg => some (fpSignBit fmt neg + (2 ^ fpExpBits fmt - 1) * 2 ^ (p - 1))
  | .fin neg mag exp =>
    if mag = 0 then some (fpSignBit fmt neg)
    else
      let a := (Fp.fin neg mag exp).absNum
      let d := (Fp.fin neg mag exp).den
      let e := ratioExp a d
      let q := quantumExp fmt e
      let m := a * 2 ^ (-q).toNat / (d * 2 ^ q.toNat)
      let biased := if e < fpMinExp fmt then 0 else (e - fpMinExp fmt + 1).toNat
      some (fpSignBit fmt neg + biased * 2 ^ (p - 1) + m % 2 ^ (p - 1))

end Sys2Proof.Machine
end

