-- ==== Sys2Proof/Machine/SampleMixer.lean ====
section
/-! DEFINITION. The Sample Mixer (43_sample_mixer.md): SAMPLE_MIX in its five floating-point steps, which alone are normative for every
ATTEN (R147), the closed integer form, and the meaning of the internal operation. -/

namespace Sys2Proof.Machine

/-- Step 1, normalize: `f = fp(s) ⊘ fp(32768.0)` (43_sample_mixer.md R141). -/
def normalize (cfg : Config) (s : Sample) : Fp := fpDiv cfg (fpInt cfg s.toInt) (fpLit cfg Config.normScale)

/-- Step 2, sum: `m0 = f1 ⊕ f2` (R142). -/
def mixSum (cfg : Config) (s1 s2 : Sample) : Fp := fpAdd cfg (normalize cfg s1) (normalize cfg s2)

/-- Step 3, attenuate: `m1 = m0 ⊗ fp(ATTEN)` (R143). -/
def attenuate (cfg : Config) (m0 : Fp) : Fp := fpMul cfg m0 (fpLit cfg cfg.atten)

/-- Step 4, soft-clip: the clamp to [-1.0, 1.0] (R144). -/
def softClip (cfg : Config) (m1 : Fp) : Fp := fpClamp m1 (fpLit cfg Config.clipLo) (fpLit cfg Config.clipHi)

/-- Step 5, re-scale: `r = m2 ⊗ fp(32768.0)` (R145). -/
def rescale (cfg : Config) (m2 : Fp) : Fp := fpMul cfg m2 (fpLit cfg Config.rescale)

/-- `clamp(trunc(r), -32768, 32767)`: truncation toward zero, then +32768 saturates (R145, decision D9). -/
def toInt16 (cfg : Config) (r : Fp) : Int := clampInt (fpTrunc cfg r) (-32768) 32767

/-- The result of SAMPLE_MIX as an integer (R140). -/
def sampleMixInt (cfg : Config) (s1 s2 : Sample) : Int :=
  toInt16 cfg (rescale cfg (softClip cfg (attenuate cfg (mixSum cfg s1 s2))))

/-- `sample_mix(s1, s2)` (R140). -/
def sampleMix (cfg : Config) (s1 s2 : Sample) : Sample := BitVec.ofInt 16 (sampleMixInt cfg s1 s2)

/-- The closed integer form of R147, `clamp(tquot(9 * (s1 + s2), 10), -32768, 32767)`, as a function of the sum. -/
def closedForm (sum : Int) : Int := clampInt (tquot (9 * sum) 10) (-32768) 32767

/-- SAMPLE_MIX (43_sample_mixer.md R140) on the operands `s1` and `s2`. -/
def execSampleMix (s : State) : Host.Outcome State Fault Refusal :=
  .next (s.setOpOut { s.opOut with sample := sampleMix s.cfg s.opIn.s1 s.opIn.s2 })

end Sys2Proof.Machine
end

