-- ==== Sys2Proof/Machine/FrameMixer.lean ====
section
/-! DEFINITION. The Frame Mixer (42_frame_mixer.md): one frame, and the meaning of FRAME_MIX. -/

namespace Sys2Proof.Machine

/-- One frame of mixed samples from two frames of samples (42_frame_mixer.md R131). -/
def mixFrame (cfg : Config) (a b : List Sample) : List (Option Sample) :=
  List.zipWith (fun u v => some (sampleMix cfg u v)) a b

/-- `frame_mix(i)` (42_frame_mixer.md R131): "mixes the sub-sequence `[i*frame_width, i*frame_width+frame_width)` from both
inputs into the corresponding slice" of YW. `none` where the slice does not lie inside the three buffers, which no run
reaches (log 13). -/
def frameMix (s : State) (i : Nat) : Option (List (Option Sample)) :=
  match memRead s.x1 (i * s.cfg.fw) s.cfg.fw, memRead s.x2 (i * s.cfg.fw) s.cfg.fw with
  | some a, some b => memWrite s.yw (i * s.cfg.fw) (mixFrame s.cfg a b)
  | _, _ => none

/-- FRAME_MIX (42_frame_mixer.md R131) on the operand `i`: `i >= NF` is refused, "never wrap or pad". -/
def execFrameMix (s : State) : Host.Outcome State Fault Refusal :=
  if s.opIn.i < s.nf then
    match frameMix s s.opIn.i with
    | some yw => .next (s.setYw yw)
    | none => .fault .indexOutOfRange
  else .next (s.refuse .frameOutOfRange)

end Sys2Proof.Machine
end

