-- ==== Sys2Proof/Machine/Reconciler.lean ====
section
/-! DEFINITION. The Buffer Reconciler (41_reconciler.md): `reconcile` and the meaning of RECONCILE. -/

namespace Sys2Proof.Machine

/-- `x ++ replicate(L - |x|, 0)`: padding with silence, at the end (41_reconciler.md R120, R121). -/
def padTo (n : Nat) (x : List Sample) : List Sample := x ++ List.replicate (n - x.length) 0#16

/-- `reconcile(x1, x2)` (41_reconciler.md R120). -/
def reconcile (x1 x2 : List Sample) : List Sample × List Sample :=
  let n := max x1.length x2.length
  (padTo n x1, padTo n x2)

/-- RECONCILE (41_reconciler.md R120) on the operands `x1` and `x2`. -/
def execReconcile (s : State) : Host.Outcome State Fault Refusal :=
  let y := reconcile s.opIn.x1 s.opIn.x2
  .next (s.setOpOut { s.opOut with y1 := y.1, y2 := y.2 })

end Sys2Proof.Machine
end

