-- ==== Sys2Proof/Machine/Driver.lean ====
section
/-! DEFINITION. The Driver/Orchestrator (44_driver.md): the host commands MIX and COLLECT, and the phase steps of the block. -/

namespace Sys2Proof.Machine

/-- MIX (44_driver.md R161) with the buffers on the data inputs; the phase is checked before the lengths (60_exceptions.md
R204(c)). -/
def execMix (s : State) : Host.Outcome State Fault Refusal :=
  match Phase.ofBits s.phase with
  | none => .refused .reservedPhase
  | some .idle =>
    if s.dinA.length > s.cfg.maxBytes ∨ s.dinB.length > s.cfg.maxBytes then .next (s.refuse .inputTooLong)
    else .next (s.capture.setPhase .decode)
  | some _ => .next (s.refuse .callInProgress)

/-- COLLECT (44_driver.md R166). While the block is busy the command holds: nothing changes, and the step keeps the command
where it is (`held`; log 4). -/
def execCollect (s : State) : Host.Outcome State Fault Refusal :=
  match Phase.ofBits s.phase with
  | none => .refused .reservedPhase
  | some .idle => .next (s.refuse .noCallInProgress)
  | some .done => .next (s.reply (.collected s.yOut)).idle
  | some _ => .next s

/-- DECODE phase step (44_driver.md R162). -/
def decodeStep (s : State) : Host.Outcome State Fault Refusal :=
  .next ({ s with x1 := decodeBuf s.aIn, x2 := decodeBuf s.bIn }.setPhase .reconcile)

/-- RECONCILE phase step (44_driver.md R163). -/
def reconcileStep (s : State) : Host.Outcome State Fault Refusal :=
  let y := reconcile s.x1 s.x2
  let n := y.1.length
  .next ({ s with x1 := y.1, x2 := y.2, l := n, nf := n / s.cfg.fw, fi := 0, yw := List.replicate n none }.setPhase .frames)

/-- FRAMES phase (44_driver.md R164): the frame step of 42_frame_mixer.md R132 while FI < NF, the exit step when FI = NF. With
FI > NF, which no run reaches, neither is enabled (log 14). -/
def framesStep (s : State) : Host.Outcome State Fault Refusal :=
  if s.fi < s.nf then
    match frameMix s s.fi with
    | some yw => .next { s with yw := yw, fi := s.fi + 1 }
    | none => .fault .indexOutOfRange
  else if s.fi = s.nf then .next (s.setPhase .encode)
  else .refused .frameOutOfRange

/-- ENCODE phase step (44_driver.md R165): `Y_OUT <- encode(YW[0 .. NF*FW))`. -/
def encodeStep (s : State) : Host.Outcome State Fault Refusal :=
  match memRead s.yw 0 (s.nf * s.cfg.fw) with
  | none => .fault .indexOutOfRange
  | some prefixYw =>
    match written prefixYw with
    | none => .fault .readUnwritten
    | some ss => .next ({ s with yOut := encodeSeq ss }.setPhase .done)

/-- The block's turn: the one step its phase enables; in IDLE and DONE none is, "and the block waits there for the host"
(44_driver.md section 3, R168). -/
def blockStep (s : State) : Host.Outcome State Fault Refusal :=
  match Phase.ofBits s.phase with
  | none => .refused .reservedPhase
  | some .idle => .next s
  | some .decode => decodeStep s
  | some .reconcile => reconcileStep s
  | some .frames => framesStep s
  | some .encode => encodeStep s
  | some .done => .next s

end Sys2Proof.Machine
end

