-- ==== Sys2Proof/Machine/Dispatch.lean ====
section
/-! DEFINITION. The one dispatch from instructions to their meanings, one arm per constructor. -/

namespace Sys2Proof.Machine

def exec (i : Instr) (s : State) : Host.Outcome State Fault Refusal :=
  match i with
  | .mix => Sys2Proof.Machine.execMix s
  | .collect => Sys2Proof.Machine.execCollect s
  | .dec16 => Sys2Proof.Machine.execDec16 s
  | .enc16 => Sys2Proof.Machine.execEnc16 s
  | .decode => Sys2Proof.Machine.execDecode s
  | .encode => Sys2Proof.Machine.execEncode s
  | .reconcile => Sys2Proof.Machine.execReconcile s
  | .frameMix => Sys2Proof.Machine.execFrameMix s
  | .sampleMix => Sys2Proof.Machine.execSampleMix s

end Sys2Proof.Machine
end

