-- ==== Sys2Proof/Machine/HostAgent.lean ====
section
/-! DEFINITION. The host agent and the model's issue path (44_driver.md R170, 30_encoding.md R69, R71): what each event of the script
does, and when the host is held. -/

namespace Sys2Proof.Machine

/-- The host issues `c` (30_encoding.md R69): a reserved code and an internal operation id are refused, MIX and COLLECT run.
The byte is checked before anything else (60_exceptions.md R204(c)). -/
def hostCommand (c : Byte) (s : State) : Host.Outcome State Fault Refusal :=
  match decodeByte c with
  | .error _ => .next (s.refuse .unknownCommand)
  | .ok i => if i.isHostCommand then exec i s else .next (s.refuse .internalOperation)

/-- The model issues the internal operation of id `c` alone (30_encoding.md R66; log 12): any other byte names none. -/
def issueInternal (c : Byte) (s : State) : Host.Outcome State Fault Refusal :=
  match decodeByte c with
  | .error _ => .next (s.refuse .unknownCommand)
  | .ok i => if i.isHostCommand then .next (s.refuse .unknownCommand) else exec i s

/-- Whether the event is held: COLLECT while the block is busy (44_driver.md R166), and `wait` until STATUS.DONE = 1
(30_encoding.md R71). The host then has no step and the block moves (log 4). -/
def held (e : Event) (s : State) : Bool :=
  match e with
  | .command c => (match decodeByte c with | .ok .collect => s.busy | _ => false)
  | .wait => !s.isDone
  | .writeA _ => false
  | .writeB _ => false
  | .readStatus => false
  | .reset _ => false
  | .block => false
  | .operands _ => false
  | .internal _ => false

/-- What an event that is not held does. Reset acts alone, whatever command is issued in the same instant (60_exceptions.md
R204(a); log 16). -/
def runEvent (e : Event) (s : State) : Host.Outcome State Fault Refusal :=
  match e with
  | .command c => hostCommand c s
  | .writeA buf => .next { s with dinA := buf }
  | .writeB buf => .next { s with dinB := buf }
  | .readStatus => .next (s.reply (.status s.status))
  | .wait => .next s
  | .reset _ => .next s.idle
  | .block => blockStep s
  | .operands ops => .next { s with opIn := ops }
  | .internal c => issueInternal c s

/-- One move of the machine in a state whose PHASE is not reserved: the next event of the script, or the block's turn where
that event is held or the script is used up (logs 1 and 4). -/
def move (s : State) : Host.Outcome State Fault Refusal :=
  match s.script with
  | [] => blockStep s
  | e :: rest => if held e s then blockStep s else runEvent e (s.setScript rest)

/-- A state with a reserved PHASE is refused and never given a step (70_reset_and_hazards.md R224; log 15). -/
def moveOrRefuse (s : State) : Host.Outcome State Fault Refusal :=
  match Phase.ofBits s.phase with
  | none => .refused .reservedPhase
  | some _ => move s

/-- The event that makes the next step run the instruction of code `c`: bit 7 says who issues it (30_encoding.md R66). -/
def issueEvent (c : Byte) : Event := if c.msb then .internal c else .command c

/-- The host program line `mix A, B` (30_encoding.md R71). -/
def mixLine (a b : List Byte) : List Event := [.writeA a, .writeB b, .command (encodeByte .mix)]

/-- The pseudo-instruction `call mix(A, B) -> Y`: `mix A, B`, `wait`, `collect -> Y` (30_encoding.md R71). -/
def callLine (a b : List Byte) : List Event := mixLine a b ++ [.wait, .command (encodeByte .collect)]

end Sys2Proof.Machine
end

