-- ==== Sys2Proof/Machine/Step.lean ====
section
/-! DEFINITION. One step of the machine, and the state whose next step runs a given instruction (the host's interface). -/

namespace Sys2Proof.Machine

/-- One step (logs 1 and 4): a host or block move, refused where PHASE is reserved. -/
def step (s : State) : Host.Outcome State Fault Refusal := moveOrRefuse s

/-- `s` with the instruction whose byte is `w` put in front of everything else the environment does (log 2). Every command is
one byte (30_encoding.md R70), so only the lowest byte is read. -/
def State.withFetchWord (s : State) (_nbits w : Nat) : State :=
  s.setScript (issueEvent (BitVec.ofNat 8 w) :: s.script)

end Sys2Proof.Machine
end

