-- ==== Sys2Proof/Safety.lean ====
section
/-! DEFINITION. The terms claims are made in: legal phases, idle data, the spec's own invariants (10_state.md R31), the invariant of a
call, the function a call computes (44_driver.md R167), and runs without a mark (60_exceptions.md R202). -/

namespace Sys2Proof.Machine

/-- PHASE holds the encoding of `p`. -/
abbrev State.inPhase (s : State) (p : Phase) : Prop := s.phase = p.bits

/-- PHASE is one of the six named values (70_reset_and_hazards.md R224: a state with a reserved PHASE "is ill-formed"). -/
abbrev State.legalPhase (s : State) : Prop := (Phase.ofBits s.phase).isSome = true

/-- No refusal is recorded: the premise of "a claim about a run" (60_exceptions.md R202). -/
abbrev State.unmarked (s : State) : Prop := s.marks = []

/-- Every element of the block's data state has its reset and idle value (10_state.md R32). -/
abbrev State.idleData (s : State) : Prop :=
  s.aIn = [] ∧ s.bIn = [] ∧ s.x1 = [] ∧ s.x2 = [] ∧ s.yw = [] ∧ s.l = 0 ∧ s.nf = 0 ∧ s.fi = 0 ∧ s.yOut = []

/-- The arithmetic parameters of 00_scope.md R5: ATTEN is 0.9 and FP_ROUNDING is round to nearest, ties to even. FP_FORMAT
stays open. -/
abbrev specArithmetic (cfg : Config) : Prop := cfg.atten = ⟨9, 10⟩ ∧ cfg.fpRounding = .nearestEven

/-- The two sample sequences of a call with input buffers `a` and `b` (44_driver.md R167). -/
def callSamples (a b : List Byte) : List Sample × List Sample := reconcile (decodeBuf a) (decodeBuf b)

/-- The number of complete frames of such a call, `NF = L div FW` (42_frame_mixer.md R130). -/
def callFrames (cfg : Config) (a b : List Byte) : Nat := (callSamples a b).1.length / cfg.fw

/-- The mixed sample at index `k`; the index lies inside both sequences wherever it is used. -/
def mixedAt (cfg : Config) (x1 x2 : List Sample) (k : Nat) : Sample := sampleMix cfg (x1.getD k 0#16) (x2.getD k 0#16)

/-- `mix_f(a, b)` (44_driver.md R167). -/
def mixF (cfg : Config) (a b : List Byte) : List Byte :=
  encodeSeq ((List.range (callFrames cfg a b * cfg.fw)).map (mixedAt cfg (callSamples a b).1 (callSamples a b).2))

/-- The invariants (a) to (d) of 10_state.md R31. (d) is said of every element of YW that is written: it is the mixed value
of some pair, the integer of the arithmetic and no wrapped form of it. -/
abbrev State.specInvariants (s : State) : Prop :=
  (s.inPhase .frames ∨ s.inPhase .encode ∨ s.inPhase .done →
    s.x1.length = s.l ∧ s.x2.length = s.l ∧ s.yw.length = s.l ∧ s.nf = s.l / s.cfg.fw ∧ s.nf * s.cfg.fw ≤ s.l) ∧
  (s.inPhase .encode ∨ s.inPhase .done →
    s.fi = s.nf ∧ ∀ k, k < s.nf * s.cfg.fw → ∃ v, s.yw[k]? = some (some v)) ∧
  (s.inPhase .done → s.yOut.length = 2 * s.nf * s.cfg.fw) ∧
  (∀ (k : Nat) (v : Sample), s.yw[k]? = some (some v) →
    v.toInt = sampleMixInt s.cfg (s.x1.getD k 0#16) (s.x2.getD k 0#16) ∧ -32768 ≤ v.toInt ∧ v.toInt ≤ 32767)

/-- The working buffers after RECONCILE, with the frames below FI mixed: X1 and X2 are the call's sequences, YW is unwritten or
right at every index, written below FI*FW, unwritten from NF*FW on (10_state.md R23 to R25). -/
abbrev State.mixing (s : State) : Prop :=
  s.x1 = (callSamples s.aIn s.bIn).1 ∧ s.x2 = (callSamples s.aIn s.bIn).2 ∧
  s.l = s.x1.length ∧ s.nf = s.l / s.cfg.fw ∧ s.fi ≤ s.nf ∧ s.yw.length = s.l ∧
  (∀ k, k < s.l → s.yw[k]? = some none ∨ s.yw[k]? = some (some (mixedAt s.cfg s.x1 s.x2 k))) ∧
  (∀ k, k < s.fi * s.cfg.fw → s.yw[k]? = some (some (mixedAt s.cfg s.x1 s.x2 k))) ∧
  (∀ k, k < s.l → s.nf * s.cfg.fw ≤ k → s.yw[k]? = some none)

/-- The invariant of a call, phase by phase: the working state is what the rules of 44_driver.md make of A_IN and B_IN. -/
abbrev State.callInv (s : State) : Prop :=
  s.legalPhase ∧ s.aIn.length ≤ s.cfg.maxBytes ∧ s.bIn.length ≤ s.cfg.maxBytes ∧
  (s.inPhase .idle → s.idleData) ∧
  (s.inPhase .decode ∨ s.inPhase .reconcile → s.yw = [] ∧ s.l = 0 ∧ s.nf = 0 ∧ s.fi = 0) ∧
  (s.inPhase .decode → s.x1 = [] ∧ s.x2 = []) ∧
  (s.inPhase .reconcile → s.x1 = decodeBuf s.aIn ∧ s.x2 = decodeBuf s.bIn) ∧
  (s.inPhase .frames ∨ s.inPhase .encode ∨ s.inPhase .done → s.mixing) ∧
  (s.inPhase .encode ∨ s.inPhase .done → s.fi = s.nf) ∧
  (s.inPhase .done → s.yOut = mixF s.cfg s.aIn s.bIn) ∧
  (¬ s.inPhase .done → s.yOut = [])

/-- The next event of the script is the issue of ENCODE alone on a sequence with a ⊥ element: the one thing on which a step
faults from a state that satisfies the invariant (40_codec.md R106). -/
abbrev State.issuesUnwritten (s : State) : Prop :=
  s.script.head? = some (.internal (encodeByte .encode)) ∧ none ∈ s.opIn.seq

/-- The next state of an outcome, where there is one. -/
def nextState : Host.Outcome State Fault Refusal → Option State
  | .next s => some s
  | .fault _ => none
  | .refused _ => none

/-- The fault of an outcome, where there is one. -/
def faultOf : Host.Outcome State Fault Refusal → Option Fault
  | .next _ => none
  | .fault f => some f
  | .refused _ => none

/-- The refusal of an outcome, where there is one. -/
def refusalOf : Host.Outcome State Fault Refusal → Option Refusal
  | .next _ => none
  | .fault _ => none
  | .refused r => some r

end Sys2Proof.Machine
end

