-- ==== Sys2Proof/Certificates/Slice0/Obligations.lean ====
section
/-! DEFINITION. The statements for the provers. A docstring names the rule a statement formalises; where a clause rests on what the
spec marks as derived, or on a choice of the model, it says so. -/

open Sys2Proof Sys2Proof.Machine

/-! ## The command byte -/

/-- R66: the whole code table; every other code is reserved; bit 7 separates host commands from internal operations. -/
def Obligations.CommandTable : Prop :=
  decodeByte 0x01#8 = .ok .mix ∧ decodeByte 0x02#8 = .ok .collect ∧ decodeByte 0x80#8 = .ok .dec16 ∧
  decodeByte 0x81#8 = .ok .enc16 ∧ decodeByte 0x82#8 = .ok .decode ∧ decodeByte 0x83#8 = .ok .encode ∧
  decodeByte 0x84#8 = .ok .reconcile ∧ decodeByte 0x85#8 = .ok .frameMix ∧ decodeByte 0x86#8 = .ok .sampleMix ∧
  (∀ c : Byte, c.toNat = 0x00 ∨ (0x03 ≤ c.toNat ∧ c.toNat ≤ 0x7F) ∨ 0x87 ≤ c.toNat →
    decodeByte c = .error .unknownCommand) ∧
  (∀ (c : Byte) (i : Instr), decodeByte c = .ok i → (i.isHostCommand = true ↔ c.msb = false))

/-- R70: every command is one byte; the decoder reads it and leaves what follows. Both directions: decoding an encoded
instruction gives it back, and bytes that decode to an instruction begin with its code. -/
def Obligations.DecodeEncodeRoundTrip : Prop :=
  ∀ (i : Instr) (rest : List Byte), i.wellFormed = true →
    (encode i).length = 1 ∧ decode (encode i ++ rest) = .ok (i, rest) ∧
    ∀ bs, decode bs = .ok (i, rest) → bs = encode i ++ rest

/-! ## The step -/

/-- A host command at the head of the script that is not held: the step is its meaning, in the state without that event.
The script is the model's form of the host (log 1). -/
def Obligations.StepRunsHostCommand : Prop :=
  ∀ (s : State) (c : Byte) (rest : List Event) (i : Instr), s.legalPhase → s.script = .command c :: rest →
    decodeByte c = .ok i → i.isHostCommand = true → ¬(i = .collect ∧ s.busy = true) →
    step s = exec i { s with script := rest }

/-- An internal operation issued by the model runs its meaning (log 12). -/
def Obligations.StepRunsInternalOperation : Prop :=
  ∀ (s : State) (c : Byte) (rest : List Event) (i : Instr), s.legalPhase → s.script = .internal c :: rest →
    decodeByte c = .ok i → i.isHostCommand = false → step s = exec i { s with script := rest }

/-- The state `withFetchWord` makes: its next step runs the instruction of that byte on the state itself (log 2). -/
def Obligations.StepRunsFetchedWord : Prop :=
  ∀ (s : State) (w : Nat) (i : Instr), s.legalPhase → decodeTableWord 8 w = some i → ¬(i = .collect ∧ s.busy = true) →
    step (s.withFetchWord 8 w) = exec i s

/-- The block's turn: when the script is used up, when the script gives it a turn, and while the host is held by COLLECT or
`wait`; a held event stays (logs 1 and 4). -/
def Obligations.StepGivesBlockItsTurn : Prop :=
  ∀ (s : State) (rest : List Event), s.legalPhase →
    (s.script = [] → step s = blockStep s) ∧
    (s.script = .block :: rest → step s = blockStep { s with script := rest }) ∧
    (s.script = .command 0x02#8 :: rest → s.busy = true → step s = blockStep s) ∧
    (s.script = .wait :: rest → ¬ s.inPhase .done → step s = blockStep s) ∧
    (s.script = .wait :: rest → s.inPhase .done → step s = .next { s with script := rest })

/-- R69: a reserved code and an internal operation id from the host are refused, whatever the phase; the run keeps the mark
and goes on (log 3), and nothing else changes. -/
def Obligations.HostCodesRefused : Prop :=
  ∀ (s : State) (c : Byte) (rest : List Event), s.legalPhase → s.script = .command c :: rest →
    (c.toNat = 0x00 ∨ (0x03 ≤ c.toNat ∧ c.toNat ≤ 0x7F) ∨ 0x87 ≤ c.toNat →
      step s = .next { s with script := rest, marks := s.marks ++ [.unknownCommand] }) ∧
    (0x80 ≤ c.toNat ∧ c.toNat ≤ 0x86 →
      step s = .next { s with script := rest, marks := s.marks ++ [.internalOperation] })

/-- R224: a reserved PHASE is refused and never given a step, and no step reaches one. That reset is refused there too, against
R220's reset at any time, is the model's reading (log 15, DEDUCED). -/
def Obligations.ReservedPhasesRefusedAndNeverReached : Prop :=
  (∀ s : State, s.phase = 0b110#3 ∨ s.phase = 0b111#3 → step s = .refused .reservedPhase) ∧
  (∀ s t : State, step s = .next t → t.phase ≠ 0b110#3 ∧ t.phase ≠ 0b111#3) ∧
  State.reset.phase ≠ 0b110#3 ∧ State.reset.phase ≠ 0b111#3

/-- R220: reset in any phase, also with a command in the same instant, sets every element of the block's state; the block
then accepts MIX. -/
def Obligations.ResetSetsEveryElement : Prop :=
  ∀ (s : State) (c : Option Byte) (rest : List Event), s.legalPhase → s.script = .reset c :: rest →
    ∃ t, step s = .next t ∧ t.phase = 0b000#3 ∧ t.aIn = [] ∧ t.bIn = [] ∧ t.x1 = [] ∧ t.x2 = [] ∧ t.yw = [] ∧ t.l = 0 ∧
      t.nf = 0 ∧ t.fi = 0 ∧ t.yOut = [] ∧ t.status = 0x00#8 ∧
      (t.dinA.length ≤ t.cfg.maxBytes → t.dinB.length ≤ t.cfg.maxBytes →
        ∃ u, exec .mix t = .next u ∧ u.phase = 0b001#3)

/-- R222 with the table of R32: the state at power-on. -/
def Obligations.PowerOnState : Prop :=
  State.reset.phase = 0b000#3 ∧ State.reset.idleData ∧ State.reset.status = 0x00#8

/-- R221: a reset abandons the call; nothing is handed over, and a later COLLECT is refused (the mark: log 3). -/
def Obligations.ResetAbandonsTheCall : Prop :=
  ∀ (s : State) (c : Option Byte) (rest : List Event), s.legalPhase → s.script = .reset c :: .command 0x02#8 :: rest →
    ∃ t, Host.Core.run core 2 s = .next t ∧ t.phase = 0b000#3 ∧ t.idleData ∧ t.replies = s.replies ∧
      t.marks = s.marks ++ [.noCallInProgress] ∧ t.script = rest

/-- R27: the layout of STATUS, that it is a view of PHASE, and that the host may read it in any phase, which changes nothing
of the block. -/
def Obligations.StatusLayout : Prop :=
  ∀ s : State, s.legalPhase →
    (s.status.getLsbD 0 = true ↔ s.inPhase .decode ∨ s.inPhase .reconcile ∨ s.inPhase .frames ∨ s.inPhase .encode) ∧
    (s.status.getLsbD 1 = true ↔ s.inPhase .done) ∧
    (∀ j, 2 ≤ j → s.status.getLsbD j = false) ∧
    ¬(s.status.getLsbD 0 = true ∧ s.status.getLsbD 1 = true) ∧
    (s.status.getLsbD 0 = false ∧ s.status.getLsbD 1 = false ↔ s.inPhase .idle) ∧
    (∀ t : State, t.phase = s.phase → t.status = s.status) ∧
    (∀ rest, s.script = .readStatus :: rest →
      step s = .next { s with script := rest, replies := s.replies ++ [.status s.status] })

/-! ## MIX and COLLECT -/

/-- R161, the accepted command: in IDLE with both lengths within MAX_BYTES, MIX completes with the snapshot. -/
def Obligations.MixAccepted : Prop :=
  ∀ s : State, s.inPhase .idle → s.dinA.length ≤ s.cfg.maxBytes → s.dinB.length ≤ s.cfg.maxBytes →
    exec .mix s = .next { s with aIn := s.dinA, bIn := s.dinB, yOut := [], phase := 0b001#3 }

/-- R161 and R204(c), the refused command: the phase is checked before the lengths, and only the mark is added (log 3). -/
def Obligations.MixRefused : Prop :=
  ∀ s : State, s.legalPhase →
    (¬ s.inPhase .idle → exec .mix s = .next { s with marks := s.marks ++ [.callInProgress] }) ∧
    (s.inPhase .idle → s.dinA.length > s.cfg.maxBytes ∨ s.dinB.length > s.cfg.maxBytes →
      exec .mix s = .next { s with marks := s.marks ++ [.inputTooLong] })

/-- R166, the accepted command: in DONE, COLLECT completes: Y_OUT goes to the host and the block takes its idle values. -/
def Obligations.CollectHandsOver : Prop :=
  ∀ s : State, s.inPhase .done →
    exec .collect s = .next { s with
      replies := s.replies ++ [.collected s.yOut], phase := 0b000#3, aIn := [], bIn := [],
      x1 := [], x2 := [], yw := [], l := 0, nf := 0, fi := 0, yOut := [] }

/-- R166: refused in IDLE (the mark: log 3), held while busy (log 4). -/
def Obligations.CollectRefusedOrHeld : Prop :=
  ∀ s : State,
    (s.inPhase .idle → exec .collect s = .next { s with marks := s.marks ++ [.noCallInProgress] }) ∧
    (s.inPhase .decode ∨ s.inPhase .reconcile ∨ s.inPhase .frames ∨ s.inPhase .encode → exec .collect s = .next s)

/-- R204(b): where the block has a step, neither host command is accepted; where one is accepted, the block has none. That a turn
of a block without a step leaves the state as it is, is the model's form of this (log 5, DEDUCED); marks and holds are logs 3 and
4. -/
def Obligations.HostAndBlockNeverCompete : Prop :=
  ∀ s : State, s.legalPhase →
    (s.busy = true → (∃ m, exec .mix s = .next { s with marks := s.marks ++ [m] }) ∧ exec .collect s = .next s) ∧
    (s.busy = false → blockStep s = .next s)

/-! ## The phase steps of the block -/

/-- R162. -/
def Obligations.DecodePhaseStep : Prop :=
  ∀ s : State, s.inPhase .decode →
    blockStep s = .next { s with x1 := decodeBuf s.aIn, x2 := decodeBuf s.bIn, phase := 0b010#3 }

/-- R163. -/
def Obligations.ReconcilePhaseStep : Prop :=
  ∀ s : State, s.inPhase .reconcile →
    blockStep s = .next { s with
      x1 := (reconcile s.x1 s.x2).1, x2 := (reconcile s.x1 s.x2).2, l := (reconcile s.x1 s.x2).1.length,
      nf := (reconcile s.x1 s.x2).1.length / s.cfg.fw, fi := 0,
      yw := List.replicate (reconcile s.x1 s.x2).1.length none, phase := 0b011#3 }

/-- R164 with the frame step of R132: frame FI of YW is mixed, every other element of YW and X1 and X2 stay, FI goes up by
one; when FI = NF the exit step. -/
def Obligations.FramesPhaseSteps : Prop :=
  ∀ s : State, s.inPhase .frames →
    (s.fi < s.nf → s.fi * s.cfg.fw + s.cfg.fw ≤ s.x1.length → s.fi * s.cfg.fw + s.cfg.fw ≤ s.x2.length →
      s.fi * s.cfg.fw + s.cfg.fw ≤ s.yw.length →
      ∃ yw, blockStep s = .next { s with yw := yw, fi := s.fi + 1 } ∧
        ∀ k : Nat, yw[k]? = if s.fi * s.cfg.fw ≤ k ∧ k < s.fi * s.cfg.fw + s.cfg.fw
          then some (some (sampleMix s.cfg (s.x1.getD k 0#16) (s.x2.getD k 0#16))) else s.yw[k]?) ∧
    (s.fi = s.nf → blockStep s = .next { s with phase := 0b100#3 })

/-- R165. -/
def Obligations.EncodePhaseStep : Prop :=
  ∀ (s : State) (ss : List Sample), s.inPhase .encode → ss.length = s.nf * s.cfg.fw →
    (∀ k : Nat, k < s.nf * s.cfg.fw → s.yw[k]? = some ss[k]?) →
    blockStep s = .next { s with yOut := encodeSeq ss, phase := 0b101#3 }

/-- R24 and R106: a read of a ⊥ element faults and never supplies a value, in ENCODE issued alone and in the ENCODE phase
step. -/
def Obligations.UnwrittenReadFaults : Prop :=
  (∀ s : State, none ∈ s.opIn.seq → exec .encode s = .fault .readUnwritten) ∧
  (∀ (s : State) (k : Nat), s.inPhase .encode → s.nf * s.cfg.fw ≤ s.yw.length → k < s.nf * s.cfg.fw →
    s.yw[k]? = some none → blockStep s = .fault .readUnwritten)

/-! ## The codec -/

/-- R100: DEC16's value by cases on the high byte, and its id. -/
def Obligations.DecSixteenValue : Prop :=
  decodeByte 0x80#8 = .ok .dec16 ∧
  ∀ lo hi : Byte, (dec16 lo hi).toInt =
    if hi.toNat < 128 then (hi.toNat : Int) * 256 + lo.toNat else (hi.toNat : Int) * 256 + lo.toNat - 65536

/-- R101: ENC16's bytes are the low and the high byte of `zext_16(s)`, and its id. -/
def Obligations.EncSixteenValue : Prop :=
  decodeByte 0x81#8 = .ok .enc16 ∧
  ∀ s : Sample, (enc16 s).1.toNat = (if 0 ≤ s.toInt then s.toInt else s.toInt + 65536).toNat % 256 ∧
    (enc16 s).2.toNat = (if 0 ≤ s.toInt then s.toInt else s.toInt + 65536).toNat / 256

/-- R102 (which the spec marks as derived from R100 and R101): the two are inverse. -/
def Obligations.DecSixteenEncSixteenInverse : Prop :=
  (∀ s : Sample, dec16 (enc16 s).1 (enc16 s).2 = s) ∧ ∀ lo hi : Byte, enc16 (dec16 lo hi) = (lo, hi)

/-- R103: the length and every element of `decode(buf)`. -/
def Obligations.DecodeBufferValue : Prop :=
  ∀ buf : List Byte, (decodeBuf buf).length = buf.length / 2 ∧
    ∀ k : Nat, k < buf.length / 2 → (decodeBuf buf)[k]? = some (dec16 (buf.getD (2 * k) 0#8) (buf.getD (2 * k + 1) 0#8))

/-- R105: the length and every byte of `encode(s)`. -/
def Obligations.EncodeSequenceValue : Prop :=
  encodeSeq [] = [] ∧
  ∀ ss : List Sample, (encodeSeq ss).length = 2 * ss.length ∧
    ∀ k : Nat, k < ss.length → (encodeSeq ss)[2 * k]? = some (enc16 (ss.getD k 0#16)).1 ∧
      (encodeSeq ss)[2 * k + 1]? = some (enc16 (ss.getD k 0#16)).2

/-- R107: the two round-trip laws the source states, and the odd case, which the spec marks as derived. -/
def Obligations.CodecRoundTrips : Prop :=
  (∀ b : List Byte, b.length % 2 = 0 → encodeSeq (decodeBuf b) = b) ∧
  (∀ ss : List Sample, decodeBuf (encodeSeq ss) = ss) ∧
  (∀ b : List Byte, b.length % 2 = 1 → encodeSeq (decodeBuf b) = b.take (b.length - 1))

/-! ## The internal operations issued alone -/

/-- DEC16, ENC16, DECODE, RECONCILE and SAMPLE_MIX complete in every state and on every operand, write their result to the
result port, and change nothing else. The two ports are the model's (log 11). -/
def Obligations.PureOperationsComplete : Prop :=
  ∀ s : State,
    exec .dec16 s = .next { s with opOut := { s.opOut with sample := dec16 s.opIn.lo s.opIn.hi } } ∧
    exec .enc16 s = .next { s with opOut := { s.opOut with lo := (enc16 s.opIn.s).1, hi := (enc16 s.opIn.s).2 } } ∧
    exec .decode s = .next { s with opOut := { s.opOut with samples := decodeBuf s.opIn.buf } } ∧
    exec .reconcile s = .next { s with opOut := { s.opOut with
      y1 := (reconcile s.opIn.x1 s.opIn.x2).1, y2 := (reconcile s.opIn.x1 s.opIn.x2).2 } } ∧
    exec .sampleMix s = .next { s with opOut := { s.opOut with sample := sampleMix s.cfg s.opIn.s1 s.opIn.s2 } }

/-- R106: ENCODE completes on every sequence without ⊥ and changes only the result port (log 11). -/
def Obligations.EncodeCompletes : Prop :=
  ∀ (s : State) (ss : List Sample), s.opIn.seq = ss.map some →
    exec .encode s = .next { s with opOut := { s.opOut with bytes := encodeSeq ss } }

/-- R131: FRAME_MIX of a frame `i < NF` inside the buffers completes; it writes exactly its slice of YW, with the mixed
samples of the same positions, and changes nothing else. The operand port is the model's (log 11). -/
def Obligations.FrameMixWritesItsSlice : Prop :=
  ∀ s : State, s.opIn.i < s.nf → s.opIn.i * s.cfg.fw + s.cfg.fw ≤ s.x1.length →
    s.opIn.i * s.cfg.fw + s.cfg.fw ≤ s.x2.length → s.opIn.i * s.cfg.fw + s.cfg.fw ≤ s.yw.length →
    ∃ yw, exec .frameMix s = .next { s with yw := yw } ∧
      ∀ k : Nat, yw[k]? = if s.opIn.i * s.cfg.fw ≤ k ∧ k < s.opIn.i * s.cfg.fw + s.cfg.fw
        then some (some (sampleMix s.cfg (s.x1.getD k 0#16) (s.x2.getD k 0#16))) else s.yw[k]?

/-- R131: FRAME_MIX of a frame `i >= NF` is refused: no wrap, no padding, only the mark (log 3). -/
def Obligations.FrameMixOutOfRangeRefused : Prop :=
  ∀ s : State, s.nf ≤ s.opIn.i → exec .frameMix s = .next { s with marks := s.marks ++ [.frameOutOfRange] }

/-- The frame of the seven internal operations: only the result port, YW (FRAME_MIX alone) and the marks (FRAME_MIX alone) can
differ afterwards. -/
def Obligations.InternalOperationsFrame : Prop :=
  ∀ (i : Instr) (s t : State), i.isHostCommand = false → exec i s = .next t →
    { t with opOut := s.opOut, yw := s.yw, marks := s.marks } = s ∧
    (i ≠ .frameMix → t.yw = s.yw ∧ t.marks = s.marks) ∧ (i = .frameMix → t.opOut = s.opOut)

/-! ## The reconciler -/

/-- R120: both results have the longer length, and each is the input followed by zero samples; its id; and its use in the
pipeline. -/
def Obligations.ReconcileValue : Prop :=
  decodeByte 0x84#8 = .ok .reconcile ∧
  (∀ x1 x2 : List Sample,
    (reconcile x1 x2).1.length = max x1.length x2.length ∧ (reconcile x1 x2).2.length = max x1.length x2.length ∧
    ∀ k : Nat, k < max x1.length x2.length →
      (reconcile x1 x2).1[k]? = some (if k < x1.length then x1.getD k 0#16 else 0#16) ∧
      (reconcile x1 x2).2[k]? = some (if k < x2.length then x2.getD k 0#16 else 0#16)) ∧
  ∀ s : State, s.inPhase .reconcile → ∃ t, blockStep s = .next t ∧ (t.x1, t.x2) = reconcile s.x1 s.x2 ∧ t.l = t.x1.length

/-- R122 (which the spec marks as derived from R120) and R121(f): symmetry, and the length after decoding. -/
def Obligations.ReconcileSymmetryAndLength : Prop :=
  (∀ x1 x2 : List Sample, reconcile x2 x1 = ((reconcile x1 x2).2, (reconcile x1 x2).1)) ∧
  ∀ a b : List Byte, (callSamples a b).1.length = max a.length b.length / 2

/-! ## The sample mixer -/

/-- R72: the interchange bits of the literals in both formats, as the spec computed them. -/
def Obligations.LiteralBitPatterns : Prop :=
  ∀ cfg : Config, cfg.fpRounding = .nearestEven →
    (cfg.fpFormat = .binary32 →
      fpBits .binary32 (fpLit cfg Config.normScale) = some 0x47000000 ∧ fpBits .binary32 (fpLit cfg ⟨9, 10⟩) = some 0x3F666666 ∧
      fpBits .binary32 (fpLit cfg Config.clipHi) = some 0x3F800000 ∧ fpBits .binary32 (fpLit cfg Config.clipLo) = some 0xBF800000) ∧
    (cfg.fpFormat = .binary64 →
      fpBits .binary64 (fpLit cfg Config.normScale) = some 0x40E0000000000000 ∧
      fpBits .binary64 (fpLit cfg ⟨9, 10⟩) = some 0x3FECCCCCCCCCCCCD ∧
      fpBits .binary64 (fpLit cfg Config.clipHi) = some 0x3FF0000000000000 ∧
      fpBits .binary64 (fpLit cfg Config.clipLo) = some 0xBFF0000000000000)

/-- R141 and R142 (exactness, which the spec marks as derived): in both formats and every rounding mode, the normalized value
is `s / 32768` and the sum is `(s1 + s2) / 32768`, exactly. -/
def Obligations.NormalizeAndSumAreExact : Prop :=
  ∀ (cfg : Config) (s1 s2 : Sample),
    (normalize cfg s1).isFinite = true ∧ (mixSum cfg s1 s2).isFinite = true ∧
    (normalize cfg s1).num * 32768 = s1.toInt * (normalize cfg s1).den ∧
    (mixSum cfg s1 s2).num * 32768 = (s1.toInt + s2.toInt) * (mixSum cfg s1 s2).den

/-- R146 (which the spec marks as derived from R141 and R142): only the sum of the inputs matters, for every configuration. -/
def Obligations.OnlyTheSumMatters : Prop :=
  ∀ (cfg : Config) (s1 s2 t1 t2 : Sample), s1.toInt + s2.toInt = t1.toInt + t2.toInt →
    sampleMix cfg s1 s2 = sampleMix cfg t1 t2

/-- R140 and R145: for every configuration, the output read as an integer is the clamped, truncated result of the five steps;
it is no wrapped form of it (where the last step has no integer part, the truncated value is free: log 25). -/
def Obligations.SampleMixNeverWraps : Prop :=
  ∀ (cfg : Config) (s1 s2 : Sample),
    (sampleMix cfg s1 s2).toInt =
      let r := fpTrunc cfg (rescale cfg (softClip cfg (attenuate cfg (mixSum cfg s1 s2))))
      if r < -32768 then -32768 else if r > 32767 then 32767 else r

/-- R147's closed integer form (which the spec marks as derived): with ATTEN = 0.9 and round to nearest even, in binary32 and in
binary64, for all pairs of samples. -/
def Obligations.SampleMixClosedForm : Prop :=
  ∀ (cfg : Config) (s1 s2 : Sample), specArithmetic cfg →
    (sampleMix cfg s1 s2).toInt =
      let q := (9 * (s1.toInt + s2.toInt)).tdiv 10
      if q < -32768 then -32768 else if q > 32767 then 32767 else q

/-- R9 past the range of the format: where `fp(ATTEN)` overflows to an infinity, a nonzero sum gives an infinity, which the clamp takes
to an end of the range; a zero sum gives NaN, for which the spec states no integer, so the result is the machine's free value, clamped
(log 25; IEEE-754's rules for infinities and NaN: log 9). -/
def Obligations.InfiniteAttenuation : Prop :=
  ∀ (cfg : Config) (s1 s2 : Sample) (neg : Bool), fpLit cfg cfg.atten = .inf neg →
    (s1.toInt + s2.toInt = 0 → attenuate cfg (mixSum cfg s1 s2) = .nan ∧
      (sampleMix cfg s1 s2).toInt =
        clampInt (Config.truncOfNoInteger cfg.fpFormat cfg.fpRounding cfg.atten) (-32768) 32767) ∧
    (0 < s1.toInt + s2.toInt → attenuate cfg (mixSum cfg s1 s2) = .inf neg ∧
      (sampleMix cfg s1 s2).toInt = if neg then -32768 else 32767) ∧
    (s1.toInt + s2.toInt < 0 → attenuate cfg (mixSum cfg s1 s2) = .inf (!neg) ∧
      (sampleMix cfg s1 s2).toInt = if neg then 32767 else -32768)

/-- R147's account of the directed modes (which the spec marks as derived), for ATTEN = 0.9 and both formats: the sums at which
the five steps differ from the closed form. -/
def Obligations.DirectedRoundingDiffersExactlyThere : Prop :=
  ∀ (cfg : Config) (s1 s2 : Sample), cfg.atten = ⟨9, 10⟩ →
    (cfg.fpRounding = .towardZero →
      ((sampleMix cfg s1 s2).toInt ≠ closedForm (s1.toInt + s2.toInt) ↔
        s1.toInt + s2.toInt ≠ 0 ∧ (s1.toInt + s2.toInt) % 10 = 0 ∧
          -36400 ≤ s1.toInt + s2.toInt ∧ s1.toInt + s2.toInt ≤ 36400)) ∧
    (cfg.fpRounding = .towardNegative →
      ((sampleMix cfg s1 s2).toInt ≠ closedForm (s1.toInt + s2.toInt) ↔
        0 < s1.toInt + s2.toInt ∧ (s1.toInt + s2.toInt) % 10 = 0 ∧ s1.toInt + s2.toInt ≤ 36400))

/-- R144 (the threshold, which the spec marks as derived): the clamp takes effect exactly from a sum of 36409 on, on either
side. -/
def Obligations.ClampTakesEffectFromThreshold : Prop :=
  ∀ (cfg : Config) (s1 s2 : Sample), specArithmetic cfg →
    (fpLt (fpLit cfg Config.clipHi) (attenuate cfg (mixSum cfg s1 s2)) = true ↔ 36409 ≤ s1.toInt + s2.toInt) ∧
    (fpLt (attenuate cfg (mixSum cfg s1 s2)) (fpLit cfg Config.clipLo) = true ↔ s1.toInt + s2.toInt ≤ -36409)

/-- R148 (which the spec marks as derived from R147): every row of the table, and the sentence after it. -/
def Obligations.SampleMixCornerCases : Prop :=
  ∀ (cfg : Config) (s1 s2 : Sample), specArithmetic cfg →
    let sum := s1.toInt + s2.toInt
    let out := (sampleMix cfg s1 s2).toInt
    (sum ≤ -36409 → out = -32768) ∧ (sum = -36408 → out = -32767) ∧ (sum = -10 → out = -9) ∧ (sum = -2 → out = -1) ∧
    (sum = 2 → out = 1) ∧ (sum = 10 → out = 9) ∧ (sum = 36407 → out = 32766) ∧ (sum = 36408 → out = 32767) ∧
    (36409 ≤ sum → out = 32767) ∧ (out = 0 ↔ -1 ≤ sum ∧ sum ≤ 1) ∧ (0 < out ↔ 1 < sum) ∧ (out < 0 ↔ sum < -1) ∧
    out.natAbs ≤ sum.natAbs

/-- R149(b) to (g) (which the spec marks as derived): symmetry, both ends of the range, silence identity, monotonicity, where
the mixer is antisymmetric and where not, and the example that it is not associative. -/
def Obligations.SampleMixLaws : Prop :=
  ∀ cfg : Config, specArithmetic cfg →
    (∀ s1 s2, sampleMix cfg s1 s2 = sampleMix cfg s2 s1) ∧
    ((∃ s1 s2, (sampleMix cfg s1 s2).toInt = -32768) ∧ ∃ s1 s2, (sampleMix cfg s1 s2).toInt = 32767) ∧
    (∀ s, (sampleMix cfg s 0#16).toInt = (9 * s.toInt).tdiv 10 ∧
      -29491 ≤ (sampleMix cfg s 0#16).toInt ∧ (sampleMix cfg s 0#16).toInt ≤ 29490) ∧
    (∀ s1 s2 t1 t2 : Sample, s1.toInt + s2.toInt ≤ t1.toInt + t2.toInt →
      (sampleMix cfg s1 s2).toInt ≤ (sampleMix cfg t1 t2).toInt) ∧
    (∀ s1 s2 t1 t2 : Sample, t1.toInt + t2.toInt = -(s1.toInt + s2.toInt) → 0 ≤ s1.toInt + s2.toInt →
      (s1.toInt + s2.toInt ≤ 36408 → (sampleMix cfg t1 t2).toInt = -(sampleMix cfg s1 s2).toInt) ∧
      (36409 ≤ s1.toInt + s2.toInt → (sampleMix cfg s1 s2).toInt = 32767 ∧ (sampleMix cfg t1 t2).toInt = -32768)) ∧
    (sampleMix cfg (sampleMix cfg 10#16 0#16) 0#16).toInt = 8 ∧
    (sampleMix cfg 10#16 (sampleMix cfg 0#16 0#16)).toInt = 9

/-! ## The machine -/

/-- R29: no step changes a parameter. -/
def Obligations.ParametersNeverChange : Prop := ∀ s t : State, step s = .next t → t.cfg = s.cfg

/-- R21: PHASE moves only along the pipeline: MIX, the phase steps, COLLECT; or to IDLE by reset. -/
def Obligations.PhaseMovesInOrder : Prop :=
  ∀ s t : State, step s = .next t →
    t.phase = s.phase ∨
    (s.inPhase .idle ∧ t.inPhase .decode ∧ s.script.head? = some (.command 0x01#8)) ∨
    (s.inPhase .decode ∧ t.inPhase .reconcile) ∨ (s.inPhase .reconcile ∧ t.inPhase .frames) ∨
    (s.inPhase .frames ∧ t.inPhase .encode ∧ s.fi = s.nf) ∨ (s.inPhase .encode ∧ t.inPhase .done) ∨
    (s.inPhase .done ∧ t.inPhase .idle ∧ s.script.head? = some (.command 0x02#8)) ∨
    (t.inPhase .idle ∧ ∃ c, s.script.head? = some (.reset c))

/-- R168, "No step draws a value or reads the host": the block's step neither reads nor changes the data inputs, the ports, the
script, the replies and the marks. -/
def Obligations.BlockIgnoresTheHost : Prop :=
  ∀ (s t : State) (a b : List Byte) (p : OpIn) (o : OpOut) (es : List Event) (r : List Reply) (m : List Mark),
    blockStep s = .next t →
    t.dinA = s.dinA ∧ t.dinB = s.dinB ∧ t.opIn = s.opIn ∧ t.opOut = s.opOut ∧ t.script = s.script ∧ t.replies = s.replies ∧
    t.marks = s.marks ∧
    blockStep { s with dinA := a, dinB := b, opIn := p, opOut := o, script := es, replies := r, marks := m } =
      .next { t with dinA := a, dinB := b, opIn := p, opOut := o, script := es, replies := r, marks := m }

/-- The invariant of a call holds after reset. -/
def Obligations.CallInvariantAtReset : Prop := State.reset.callInv

/-- The invariant of a call is kept by every step, from every state that satisfies it, whatever the script holds. -/
def Obligations.CallInvariantKept : Prop := ∀ s t : State, s.callInv → step s = .next t → t.callInv

/-- R200: from a state that satisfies the invariant a step faults or is refused at most when it issues ENCODE alone on a sequence
with ⊥, which the host cannot do (log 12). That a request the spec refuses answers a next state is log 3; that a turn of a block
without a step does is log 5. -/
def Obligations.StepStopsAtMostOnEncodeOfUnwritten : Prop :=
  ∀ s : State, s.callInv → ¬ s.issuesUnwritten → ∃ t, step s = .next t

/-- R31 (which the spec marks as derived) and R20: every state that any number of steps reaches from a state that satisfies the
invariant satisfies (a) to (d), and in IDLE every element has its idle value. -/
def Obligations.SpecInvariantsOfReachedStates : Prop :=
  ∀ (n : Nat) (s t : State), s.callInv → Host.Core.run core n s = .next t →
    t.specInvariants ∧ (t.inPhase .idle → t.idleData ∧ t.status = 0x00#8)

/-- R160, R167 and R169 (which the spec marks as derived): from IDLE, whatever the data state holds, MIX then COLLECT takes one
step to accept, NF + 4 block steps during which COLLECT is held, and one step to collect; the host gets exactly `mix_f` of the two
buffers, and the block is idle again. The script, the hold, the data inputs and the replies are the model's (logs 1, 4, 18, 19). -/
def Obligations.WholeCallReturnsMix : Prop :=
  ∀ (s : State) (rest : List Event), s.inPhase .idle → s.script = .command 0x01#8 :: .command 0x02#8 :: rest →
    s.dinA.length ≤ s.cfg.maxBytes → s.dinB.length ≤ s.cfg.maxBytes →
    Host.Core.run core (callFrames s.cfg s.dinA s.dinB + 6) s =
      .next { s with
        script := rest, replies := s.replies ++ [.collected (mixF s.cfg s.dinA s.dinB)], phase := 0b000#3,
        aIn := [], bIn := [], x1 := [], x2 := [], yw := [], l := 0, nf := 0, fi := 0, yOut := [] }

/-- R169 (which the spec marks as derived): the block is busy after MIX and before block step NF + 4, and DONE with the result
from then on, for as long as nobody collects (R170); that the waiting block stays as it is, is log 5 (the script: log 1). -/
def Obligations.DoneAfterExactlyNFPlusFour : Prop :=
  ∀ (s : State) (n : Nat), s.inPhase .idle → s.script = [.command 0x01#8] →
    s.dinA.length ≤ s.cfg.maxBytes → s.dinB.length ≤ s.cfg.maxBytes →
    ∃ t, Host.Core.run core (n + 1) s = .next t ∧
      (n < callFrames s.cfg s.dinA s.dinB + 4 → t.busy = true ∧ t.yOut = []) ∧
      (callFrames s.cfg s.dinA s.dinB + 4 ≤ n → t.inPhase .done ∧ t.yOut = mixF s.cfg s.dinA s.dinB)

/-- R50: host writes to its buffers after MIX is accepted do not reach the call (script, hold, data inputs, replies: logs 1, 4, 18,
19). -/
def Obligations.HostWritesAfterMixDoNotReachTheCall : Prop :=
  ∀ (s : State) (a b : List Byte) (rest : List Event), s.inPhase .idle →
    s.script = .command 0x01#8 :: .writeA a :: .writeB b :: .command 0x02#8 :: rest →
    s.dinA.length ≤ s.cfg.maxBytes → s.dinB.length ≤ s.cfg.maxBytes →
    ∃ t, Host.Core.run core (callFrames s.cfg s.dinA s.dinB + 8) s = .next t ∧ t.dinA = a ∧ t.dinB = b ∧ t.script = rest ∧
      t.replies = s.replies ++ [.collected (mixF s.cfg s.dinA s.dinB)] ∧ t.marks = s.marks

/-- R134 (which the spec marks as derived): the output length law. -/
def Obligations.OutputLengthLaw : Prop :=
  ∀ (cfg : Config) (a b : List Byte),
    (mixF cfg a b).length = 2 * (max a.length b.length / 2 / cfg.fw * cfg.fw) ∧
    (mixF cfg a b).length % 2 = 0

/-- R135 (which the spec marks as derived): a second frame width changes no sample that both outputs hold. -/
def Obligations.FrameWidthChangesOnlyTheLength : Prop :=
  ∀ (cfg : Config) (w : Nat) (a b : List Byte) (j : Nat),
    j < (mixF cfg a b).length → j < (mixF { cfg with fw := w } a b).length →
    (mixF cfg a b)[j]? = (mixF { cfg with fw := w } a b)[j]?

/-- R167's symmetry (which the spec marks as derived), for equal and unequal lengths and every configuration. -/
def Obligations.MixIsSymmetric : Prop := ∀ (cfg : Config) (a b : List Byte), mixF cfg a b = mixF cfg b a

/-- R64 and R41: a dangling last byte of an input has no influence on the result of a call. -/
def Obligations.DanglingByteHasNoInfluence : Prop :=
  ∀ (cfg : Config) (a b : List Byte) (x : Byte), a.length % 2 = 0 → mixF cfg (a ++ [x]) b = mixF cfg a b

/-- The block's phase steps and the internal operations issued alone apply the same functions (R104, R120, R131: "Use in the
pipeline"); the ports are the model's (log 11). -/
def Obligations.PipelineAppliesTheOperations : Prop :=
  (∀ s t u v : State, s.inPhase .decode → blockStep s = .next t →
    exec .decode { s with opIn := { s.opIn with buf := s.aIn } } = .next u →
    exec .decode { s with opIn := { s.opIn with buf := s.bIn } } = .next v →
    t.x1 = u.opOut.samples ∧ t.x2 = v.opOut.samples) ∧
  (∀ s t u : State, s.inPhase .reconcile → blockStep s = .next t →
    exec .reconcile { s with opIn := { s.opIn with x1 := s.x1, x2 := s.x2 } } = .next u →
    t.x1 = u.opOut.y1 ∧ t.x2 = u.opOut.y2) ∧
  (∀ s t u : State, s.inPhase .frames → s.fi < s.nf → blockStep s = .next t →
    exec .frameMix { s with opIn := { s.opIn with i := s.fi } } = .next u → t.yw = u.yw) ∧
  (∀ s t u : State, s.inPhase .encode → blockStep s = .next t →
    exec .encode { s with opIn := { s.opIn with seq := s.yw.take (s.nf * s.cfg.fw) } } = .next u → t.yOut = u.opOut.bytes)
end

