-- ==== Sys2Proof/Laws/Float.lean ====
section
/-! SUPPORT. Floating-point values as rational numbers, and what rounding a ratio does: the exponent it finds, and that a ratio the
format can hold is kept exactly. -/

namespace Sys2Proof.Machine

/-- The value of a finite floating-point number; 0 for the others. -/
def Fp.val (x : Fp) : ℚ :=
  match x with
  | .fin neg mag exp => (if neg then -(mag : ℚ) else (mag : ℚ)) * (2 : ℚ) ^ exp
  | .inf _ => 0
  | .nan => 0

/-- A power of two with an integer exponent, as the quotient of the two natural powers the definitions use. -/
theorem two_zpow_eq (e : ℤ) : (2 : ℚ) ^ e = (2 : ℚ) ^ e.toNat / (2 : ℚ) ^ (-e).toNat := by
  rcases le_total 0 e with h | h
  · lift e to ℕ using h
    simp
  · obtain ⟨n, rfl⟩ : ∃ n : ℕ, e = -(n : ℤ) := ⟨(-e).toNat, by omega⟩
    simp

/-- Numerator over denominator is the value. -/
theorem Fp.num_div_den (x : Fp) : (x.num : ℚ) / x.den = x.val := by
  cases x with
  | fin neg mag exp =>
    cases neg <;> simp only [Fp.num, Fp.den, Fp.val, two_zpow_eq, if_true, if_false, Bool.false_eq_true] <;> push_cast <;> ring
  | inf neg => simp [Fp.num, Fp.val]
  | nan => simp [Fp.num, Fp.val]

/-- A denominator is above 0. -/
theorem Fp.den_pos (x : Fp) : 0 < x.den := by cases x <;> simp [Fp.den]

/-- The magnitude's numerator is the numerator without its sign. -/
theorem Fp.natAbs_num (x : Fp) : x.num.natAbs = x.absNum := by
  cases x with
  | fin neg mag exp => cases neg <;> simp [Fp.num, Fp.absNum, Int.natAbs_mul, Int.natAbs_pow]
  | inf neg => rfl
  | nan => rfl

/-- Comparison of the scaled integers is comparison with a power of two. -/
theorem scaled_lt_iff (a d : ℕ) (hd : 0 < d) (e : ℤ) :
    a * 2 ^ (-e).toNat < d * 2 ^ e.toNat ↔ (a : ℚ) / d < (2 : ℚ) ^ e := by
  rw [two_zpow_eq, div_lt_div_iff₀ (by exact_mod_cast hd) (by positivity), mul_comm ((2 : ℚ) ^ e.toNat)]
  exact_mod_cast Iff.rfl

/-- `ratioExp` finds the exponent of a ratio. -/
theorem ratioExp_spec (a d : ℕ) (ha : 0 < a) (hd : 0 < d) :
    (2 : ℚ) ^ ratioExp a d ≤ (a : ℚ) / d ∧ (a : ℚ) / d < (2 : ℚ) ^ (ratioExp a d + 1) := by
  have hd' : (0 : ℚ) < d := by exact_mod_cast hd
  have a1 : (2 : ℚ) ^ a.log2 ≤ a := by exact_mod_cast Nat.log2_self_le (by omega)
  have a2 : (a : ℚ) < 2 ^ (a.log2 + 1) := by exact_mod_cast Nat.lt_log2_self
  have d1 : (2 : ℚ) ^ d.log2 ≤ d := by exact_mod_cast Nat.log2_self_le (by omega)
  have d2 : (d : ℚ) < 2 ^ (d.log2 + 1) := by exact_mod_cast Nat.lt_log2_self
  have hlow : (2 : ℚ) ^ ((a.log2 : ℤ) - d.log2 - 1) ≤ (a : ℚ) / d := by
    rw [show (a.log2 : ℤ) - d.log2 - 1 = (a.log2 : ℤ) - ((d.log2 + 1 : ℕ) : ℤ) by push_cast; ring,
      zpow_sub₀ two_ne_zero, zpow_natCast, zpow_natCast]
    exact div_le_div₀ (by positivity) a1 hd' d2.le
  have hhigh : (a : ℚ) / d < (2 : ℚ) ^ ((a.log2 : ℤ) - d.log2 + 1) := by
    rw [show (a.log2 : ℤ) - d.log2 + 1 = ((a.log2 + 1 : ℕ) : ℤ) - (d.log2 : ℤ) by push_cast; ring,
      zpow_sub₀ two_ne_zero, zpow_natCast, zpow_natCast]
    exact div_lt_div₀ a2 d1 (by positivity) (by positivity)
  unfold ratioExp
  simp only
  split
  · rename_i h
    rw [scaled_lt_iff a d hd] at h
    exact ⟨hlow, by rwa [sub_add_cancel]⟩
  · rename_i h
    rw [scaled_lt_iff a d hd, not_lt] at h
    exact ⟨h, hhigh⟩

/-- A magnitude of 0 rounds to the zero of its sign. -/
@[simp] theorem roundMag_zero (fmt : FpFormat) (mode : Rounding) (neg : Bool) (d : ℕ) :
    roundMag fmt mode neg 0 d = .fin neg 0 0 := by simp [roundMag]

/-- Everything rounding can answer: a zero, the format's overflow, or a significand next to the exact one, at the exponent the
magnitude has. -/
theorem roundMag_cases (fmt : FpFormat) (mode : Rounding) (neg : Bool) (a d : ℕ) :
    ((a = 0 ∨ d = 0) ∧ roundMag fmt mode neg a d = .fin neg 0 0) ∨
    ∃ m : ℕ, (m = a * 2 ^ (-quantumExp fmt (ratioExp a d)).toNat / (d * 2 ^ (quantumExp fmt (ratioExp a d)).toNat) ∨
        m = a * 2 ^ (-quantumExp fmt (ratioExp a d)).toNat / (d * 2 ^ (quantumExp fmt (ratioExp a d)).toNat) + 1) ∧
      ((overflows fmt m (quantumExp fmt (ratioExp a d)) = true ∧
          roundMag fmt mode neg a d = overflowResult fmt mode neg) ∨
        (overflows fmt m (quantumExp fmt (ratioExp a d)) = false ∧
          roundMag fmt mode neg a d = .fin neg m (quantumExp fmt (ratioExp a d)))) := by
  unfold roundMag
  by_cases h : a = 0 ∨ d = 0
  · exact .inl ⟨h, by rw [if_pos h]⟩
  · rw [if_neg h]
    simp only
    generalize a * 2 ^ (-quantumExp fmt (ratioExp a d)).toNat = top
    generalize d * 2 ^ (quantumExp fmt (ratioExp a d)).toNat = bot
    refine .inr ⟨if roundsUp mode neg (top / bot) (top % bot) bot then top / bot + 1 else top / bot, by split <;> simp, ?_⟩
    generalize (if roundsUp mode neg (top / bot) (top % bot) bot then top / bot + 1 else top / bot) = m
    cases overflows fmt m (quantumExp fmt (ratioExp a d)) <;> simp

/-- A result of an overflow is an infinity or the largest finite number, with the sign it had. -/
theorem overflowResult_cases (fmt : FpFormat) (mode : Rounding) (neg : Bool) :
    overflowResult fmt mode neg = .inf neg ∨ overflowResult fmt mode neg = fpLargest fmt neg := by
  cases mode <;> cases neg <;> simp [overflowResult]

/-- With nothing left over, no mode rounds up. -/
theorem roundsUp_zero (mode : Rounding) (neg : Bool) (m d : ℕ) (hd : 0 < d) : roundsUp mode neg m 0 d = false := by
  cases mode <;> simp [roundsUp] <;> omega

/-- A magnitude that is a whole multiple of the last significand bit and no larger than the format's range is kept exactly, in
every mode. -/
theorem roundMag_exact (fmt : FpFormat) (mode : Rounding) (neg : Bool) (a d k : ℕ) (ha : a ≠ 0) (hd : d ≠ 0)
    (h : (a : ℚ) / d = k * (2 : ℚ) ^ quantumExp fmt (ratioExp a d))
    (ho : overflows fmt k (quantumExp fmt (ratioExp a d)) = false) :
    roundMag fmt mode neg a d = .fin neg k (quantumExp fmt (ratioExp a d)) := by
  have hd' : (d : ℚ) ≠ 0 := by exact_mod_cast hd
  have hdiv : a * 2 ^ (-quantumExp fmt (ratioExp a d)).toNat = k * (d * 2 ^ (quantumExp fmt (ratioExp a d)).toNat) := by
    have hq : (a : ℚ) * 2 ^ (-quantumExp fmt (ratioExp a d)).toNat =
        k * (d * 2 ^ (quantumExp fmt (ratioExp a d)).toNat) := by
      rw [two_zpow_eq, div_eq_iff hd'] at h
      rw [h]
      field_simp
    exact_mod_cast hq
  have hbot : 0 < d * 2 ^ (quantumExp fmt (ratioExp a d)).toNat := Nat.mul_pos (Nat.pos_of_ne_zero hd) (by positivity)
  unfold roundMag
  rw [if_neg (by simp [ha, hd])]
  simp only [hdiv, Nat.mul_mod_left, Nat.mul_div_cancel _ hbot, roundsUp_zero _ _ _ _ hbot, Bool.false_eq_true, if_false, ho]

/-- NaN is below and above nothing, so the clamp keeps it (00_scope.md R9). -/
@[simp] theorem fpClamp_nan (lo hi : Fp) : fpClamp .nan lo hi = .nan := by cases lo <;> cases hi <;> rfl

end Sys2Proof.Machine
end

