-- ==== Sys2Proof/Laws/Ops.lean ====
section
/-! SUPPORT. What the shared operations over buffers can do, said once: MemRead, MemWrite, the samples of a written sequence, one frame,
and the two's-complement readings of 00_scope.md R10. -/

namespace Sys2Proof.Machine

/-- MemRead answers exactly inside its bound, with the slice (00_scope.md R11). -/
theorem memRead_eq_some_iff {α : Type} (buf v : List α) (i n : Nat) :
    memRead buf i n = some v ↔ i + n ≤ buf.length ∧ v = (buf.drop i).take n := by
  unfold memRead
  split <;> simp_all [eq_comm]

/-- MemWrite answers exactly inside its bound (00_scope.md R11). -/
theorem memWrite_eq_some_iff {α : Type} (buf v w : List α) (i : Nat) :
    memWrite buf i v = some w ↔
      i + v.length ≤ buf.length ∧ w = buf.take i ++ v ++ buf.drop (i + v.length) := by
  unfold memWrite
  split <;> simp_all [eq_comm]

/-- MemWrite keeps the length of the buffer. -/
theorem memWrite_length {α : Type} {buf v w : List α} {i : Nat} (h : memWrite buf i v = some w) :
    w.length = buf.length := by
  obtain ⟨hb, rfl⟩ := (memWrite_eq_some_iff buf v w i).1 h
  simp only [List.length_append, List.length_take, List.length_drop]
  omega

/-- Read after write: the written slice reads as the data, every other element as before. -/
theorem memWrite_getElem? {α : Type} {buf v w : List α} {i : Nat} (h : memWrite buf i v = some w) (k : Nat) :
    w[k]? = if i ≤ k ∧ k < i + v.length then v[k - i]? else buf[k]? := by
  obtain ⟨hb, rfl⟩ := (memWrite_eq_some_iff buf v w i).1 h
  have hi : (buf.take i).length = i := by simp; omega
  by_cases h1 : k < i
  · rw [List.append_assoc, List.getElem?_append_left (by omega), List.getElem?_take_of_lt h1]
    simp [show ¬ i ≤ k by omega]
  · by_cases h2 : k < i + v.length
    · rw [List.append_assoc, List.getElem?_append_right (by omega), hi, List.getElem?_append_left (by omega)]
      simp [show i ≤ k by omega, h2]
    · rw [List.getElem?_append_right (by simp; omega)]
      simp only [List.length_append, hi, List.getElem?_drop]
      rw [if_neg (by omega)]
      congr 1
      omega

/-- A sequence all of whose elements are written has exactly those samples. -/
theorem written_map_some (ss : List Sample) : written (ss.map some) = some ss := by
  induction ss with
  | nil => rfl
  | cons s ss ih => simp [written, ih]

/-- A sequence has samples exactly when it is those samples, none of them ⊥ (40_codec.md R106). -/
theorem written_eq_some_iff (xs : List (Option Sample)) (ss : List Sample) : written xs = some ss ↔ xs = ss.map some := by
  refine ⟨fun h => ?_, fun h => h ▸ written_map_some ss⟩
  induction xs generalizing ss with
  | nil => simp only [written, Option.some.injEq] at h; simp [← h]
  | cons x xs ih =>
    cases x with
    | none => simp [written] at h
    | some a =>
      cases hw : written xs with
      | none => simp [written, hw] at h
      | some ys =>
        simp only [written, hw, Option.some.injEq] at h
        rw [← h, ih ys hw, List.map_cons]

/-- A sequence has no samples exactly when one of its elements is ⊥ (40_codec.md R106). -/
theorem written_eq_none_iff (xs : List (Option Sample)) : written xs = none ↔ none ∈ xs := by
  induction xs with
  | nil => simp [written]
  | cons x xs ih =>
    cases x with
    | none => simp [written]
    | some a => cases hw : written xs <;> simp_all [written]

/-- One frame has the length of its two slices (42_frame_mixer.md R131). -/
theorem mixFrame_length (cfg : Config) (a b : List Sample) : (mixFrame cfg a b).length = min a.length b.length := by
  simp [mixFrame]

/-- What one frame does: it answers exactly where the three buffers hold the slice, keeps the length of YW, mixes the slice and
leaves every other element (42_frame_mixer.md R131). -/
theorem frameMix_spec {s : State} {i : Nat} {yw : List (Option Sample)} (h : frameMix s i = some yw) :
    i * s.cfg.fw + s.cfg.fw ≤ s.x1.length ∧ i * s.cfg.fw + s.cfg.fw ≤ s.x2.length ∧
    i * s.cfg.fw + s.cfg.fw ≤ s.yw.length ∧ yw.length = s.yw.length ∧
    ∀ k, yw[k]? = if i * s.cfg.fw ≤ k ∧ k < i * s.cfg.fw + s.cfg.fw
      then some (some (sampleMix s.cfg (s.x1.getD k 0#16) (s.x2.getD k 0#16))) else s.yw[k]? := by
  unfold frameMix at h
  cases h1 : memRead s.x1 (i * s.cfg.fw) s.cfg.fw with
  | none => simp [h1] at h
  | some a =>
    cases h2 : memRead s.x2 (i * s.cfg.fw) s.cfg.fw with
    | none => simp [h1, h2] at h
    | some b =>
      simp only [h1, h2] at h
      obtain ⟨b1, ha⟩ := (memRead_eq_some_iff _ _ _ _).1 h1
      obtain ⟨b2, hb⟩ := (memRead_eq_some_iff _ _ _ _).1 h2
      have hl : (mixFrame s.cfg a b).length = s.cfg.fw := by
        rw [mixFrame_length, ha, hb]; simp only [List.length_take, List.length_drop]; omega
      have b3 := ((memWrite_eq_some_iff _ _ _ _).1 h).1
      refine ⟨b1, b2, by omega, memWrite_length h, fun k => ?_⟩
      rw [memWrite_getElem? h k, hl]
      split
      · have e1 : k - i * s.cfg.fw < s.cfg.fw := by omega
        have e2 : i * s.cfg.fw + (k - i * s.cfg.fw) = k := by omega
        simp only [mixFrame, List.getElem?_zipWith, ha, hb, List.getElem?_take_of_lt e1, List.getElem?_drop, e2,
          List.getD_eq_getElem?_getD]
        rw [List.getElem?_eq_getElem (by omega), List.getElem?_eq_getElem (by omega)]
        rfl
      · rfl

/-- One frame answers wherever the three buffers hold the slice. -/
theorem frameMix_isSome {s : State} {i : Nat} (h1 : i * s.cfg.fw + s.cfg.fw ≤ s.x1.length)
    (h2 : i * s.cfg.fw + s.cfg.fw ≤ s.x2.length) (h3 : i * s.cfg.fw + s.cfg.fw ≤ s.yw.length) :
    ∃ yw, frameMix s i = some yw := by
  have hl : (mixFrame s.cfg ((s.x1.drop (i * s.cfg.fw)).take s.cfg.fw)
      ((s.x2.drop (i * s.cfg.fw)).take s.cfg.fw)).length = s.cfg.fw := by
    rw [mixFrame_length]; simp only [List.length_take, List.length_drop]; omega
  unfold frameMix
  rw [(memRead_eq_some_iff _ _ _ _).2 ⟨h1, rfl⟩, (memRead_eq_some_iff _ _ _ _).2 ⟨h2, rfl⟩]
  exact ⟨_, (memWrite_eq_some_iff _ _ _ _).2 ⟨by omega, rfl⟩⟩

/-- The value of a sample is `sext_16` of its field (00_scope.md R10). -/
theorem toInt_eq_sext16 (s : Sample) : s.toInt = sext16 s.toNat := by
  have := s.isLt
  rw [BitVec.toInt_eq_toNat_cond]
  unfold sext16
  split <;> split <;> omega

/-- `zext_16` gives the field back (00_scope.md R10). -/
theorem zext16_toInt (s : Sample) : zext16 s.toInt = s.toNat := by
  have := s.isLt
  rw [toInt_eq_sext16]
  unfold sext16 zext16
  split <;> split <;> omega

/-- `clamp` stays between its bounds (00_scope.md R9). -/
theorem clampInt_bounds (v lo hi : Int) (h : lo ≤ hi) : lo ≤ clampInt v lo hi ∧ clampInt v lo hi ≤ hi := by
  unfold clampInt
  split
  · omega
  · split <;> omega

end Sys2Proof.Machine
end

