-- ==== Sys2Proof/Laws/PerInstr.lean ====
section
/-! SUPPORT. Facts about every instruction, one lemma per constructor. -/

namespace Sys2Proof.Laws.OneByte

/-- "Every command is exactly one byte" (30_encoding.md R70), bit 7 of it says whether it is a host command (R66), and the
instruction is well-formed. -/
def Statement (i : Instr) : Prop :=
  (encode i).length = 1 ∧ (encodeByte i).msb = !i.isHostCommand ∧ i.wellFormed = true

theorem mix : Statement .mix := ⟨rfl, rfl, rfl⟩
theorem collect : Statement .collect := ⟨rfl, rfl, rfl⟩
theorem dec16 : Statement .dec16 := ⟨rfl, rfl, rfl⟩
theorem enc16 : Statement .enc16 := ⟨rfl, rfl, rfl⟩
theorem decode : Statement .decode := ⟨rfl, rfl, rfl⟩
theorem encode : Statement .encode := ⟨rfl, rfl, rfl⟩
theorem reconcile : Statement .reconcile := ⟨rfl, rfl, rfl⟩
theorem frameMix : Statement .frameMix := ⟨rfl, rfl, rfl⟩
theorem sampleMix : Statement .sampleMix := ⟨rfl, rfl, rfl⟩

end Sys2Proof.Laws.OneByte
end

