-- ==== Sys2Proof/Laws/State.lean ====
section
/-! SUPPORT. One lemma per field per update of State, true by rfl, so that no proof unfolds a record update; and the readings of PHASE. -/

namespace Sys2Proof.Machine

@[simp] theorem State.refuse_cfg (s : State) (m : Mark) : (s.refuse m).cfg = s.cfg := rfl
@[simp] theorem State.refuse_phase (s : State) (m : Mark) : (s.refuse m).phase = s.phase := rfl
@[simp] theorem State.refuse_aIn (s : State) (m : Mark) : (s.refuse m).aIn = s.aIn := rfl
@[simp] theorem State.refuse_bIn (s : State) (m : Mark) : (s.refuse m).bIn = s.bIn := rfl
@[simp] theorem State.refuse_x1 (s : State) (m : Mark) : (s.refuse m).x1 = s.x1 := rfl
@[simp] theorem State.refuse_x2 (s : State) (m : Mark) : (s.refuse m).x2 = s.x2 := rfl
@[simp] theorem State.refuse_yw (s : State) (m : Mark) : (s.refuse m).yw = s.yw := rfl
@[simp] theorem State.refuse_l (s : State) (m : Mark) : (s.refuse m).l = s.l := rfl
@[simp] theorem State.refuse_nf (s : State) (m : Mark) : (s.refuse m).nf = s.nf := rfl
@[simp] theorem State.refuse_fi (s : State) (m : Mark) : (s.refuse m).fi = s.fi := rfl
@[simp] theorem State.refuse_yOut (s : State) (m : Mark) : (s.refuse m).yOut = s.yOut := rfl
@[simp] theorem State.refuse_dinA (s : State) (m : Mark) : (s.refuse m).dinA = s.dinA := rfl
@[simp] theorem State.refuse_dinB (s : State) (m : Mark) : (s.refuse m).dinB = s.dinB := rfl
@[simp] theorem State.refuse_opIn (s : State) (m : Mark) : (s.refuse m).opIn = s.opIn := rfl
@[simp] theorem State.refuse_opOut (s : State) (m : Mark) : (s.refuse m).opOut = s.opOut := rfl
@[simp] theorem State.refuse_script (s : State) (m : Mark) : (s.refuse m).script = s.script := rfl
@[simp] theorem State.refuse_replies (s : State) (m : Mark) : (s.refuse m).replies = s.replies := rfl
@[simp] theorem State.refuse_marks (s : State) (m : Mark) : (s.refuse m).marks = s.marks ++ [m] := rfl

@[simp] theorem State.reply_cfg (s : State) (r : Reply) : (s.reply r).cfg = s.cfg := rfl
@[simp] theorem State.reply_phase (s : State) (r : Reply) : (s.reply r).phase = s.phase := rfl
@[simp] theorem State.reply_aIn (s : State) (r : Reply) : (s.reply r).aIn = s.aIn := rfl
@[simp] theorem State.reply_bIn (s : State) (r : Reply) : (s.reply r).bIn = s.bIn := rfl
@[simp] theorem State.reply_x1 (s : State) (r : Reply) : (s.reply r).x1 = s.x1 := rfl
@[simp] theorem State.reply_x2 (s : State) (r : Reply) : (s.reply r).x2 = s.x2 := rfl
@[simp] theorem State.reply_yw (s : State) (r : Reply) : (s.reply r).yw = s.yw := rfl
@[simp] theorem State.reply_l (s : State) (r : Reply) : (s.reply r).l = s.l := rfl
@[simp] theorem State.reply_nf (s : State) (r : Reply) : (s.reply r).nf = s.nf := rfl
@[simp] theorem State.reply_fi (s : State) (r : Reply) : (s.reply r).fi = s.fi := rfl
@[simp] theorem State.reply_yOut (s : State) (r : Reply) : (s.reply r).yOut = s.yOut := rfl
@[simp] theorem State.reply_dinA (s : State) (r : Reply) : (s.reply r).dinA = s.dinA := rfl
@[simp] theorem State.reply_dinB (s : State) (r : Reply) : (s.reply r).dinB = s.dinB := rfl
@[simp] theorem State.reply_opIn (s : State) (r : Reply) : (s.reply r).opIn = s.opIn := rfl
@[simp] theorem State.reply_opOut (s : State) (r : Reply) : (s.reply r).opOut = s.opOut := rfl
@[simp] theorem State.reply_script (s : State) (r : Reply) : (s.reply r).script = s.script := rfl
@[simp] theorem State.reply_replies (s : State) (r : Reply) : (s.reply r).replies = s.replies ++ [r] := rfl
@[simp] theorem State.reply_marks (s : State) (r : Reply) : (s.reply r).marks = s.marks := rfl

@[simp] theorem State.setPhase_cfg (s : State) (p : Phase) : (s.setPhase p).cfg = s.cfg := rfl
@[simp] theorem State.setPhase_phase (s : State) (p : Phase) : (s.setPhase p).phase = p.bits := rfl
@[simp] theorem State.setPhase_aIn (s : State) (p : Phase) : (s.setPhase p).aIn = s.aIn := rfl
@[simp] theorem State.setPhase_bIn (s : State) (p : Phase) : (s.setPhase p).bIn = s.bIn := rfl
@[simp] theorem State.setPhase_x1 (s : State) (p : Phase) : (s.setPhase p).x1 = s.x1 := rfl
@[simp] theorem State.setPhase_x2 (s : State) (p : Phase) : (s.setPhase p).x2 = s.x2 := rfl
@[simp] theorem State.setPhase_yw (s : State) (p : Phase) : (s.setPhase p).yw = s.yw := rfl
@[simp] theorem State.setPhase_l (s : State) (p : Phase) : (s.setPhase p).l = s.l := rfl
@[simp] theorem State.setPhase_nf (s : State) (p : Phase) : (s.setPhase p).nf = s.nf := rfl
@[simp] theorem State.setPhase_fi (s : State) (p : Phase) : (s.setPhase p).fi = s.fi := rfl
@[simp] theorem State.setPhase_yOut (s : State) (p : Phase) : (s.setPhase p).yOut = s.yOut := rfl
@[simp] theorem State.setPhase_dinA (s : State) (p : Phase) : (s.setPhase p).dinA = s.dinA := rfl
@[simp] theorem State.setPhase_dinB (s : State) (p : Phase) : (s.setPhase p).dinB = s.dinB := rfl
@[simp] theorem State.setPhase_opIn (s : State) (p : Phase) : (s.setPhase p).opIn = s.opIn := rfl
@[simp] theorem State.setPhase_opOut (s : State) (p : Phase) : (s.setPhase p).opOut = s.opOut := rfl
@[simp] theorem State.setPhase_script (s : State) (p : Phase) : (s.setPhase p).script = s.script := rfl
@[simp] theorem State.setPhase_replies (s : State) (p : Phase) : (s.setPhase p).replies = s.replies := rfl
@[simp] theorem State.setPhase_marks (s : State) (p : Phase) : (s.setPhase p).marks = s.marks := rfl

@[simp] theorem State.setScript_cfg (s : State) (es : List Event) : (s.setScript es).cfg = s.cfg := rfl
@[simp] theorem State.setScript_phase (s : State) (es : List Event) : (s.setScript es).phase = s.phase := rfl
@[simp] theorem State.setScript_aIn (s : State) (es : List Event) : (s.setScript es).aIn = s.aIn := rfl
@[simp] theorem State.setScript_bIn (s : State) (es : List Event) : (s.setScript es).bIn = s.bIn := rfl
@[simp] theorem State.setScript_x1 (s : State) (es : List Event) : (s.setScript es).x1 = s.x1 := rfl
@[simp] theorem State.setScript_x2 (s : State) (es : List Event) : (s.setScript es).x2 = s.x2 := rfl
@[simp] theorem State.setScript_yw (s : State) (es : List Event) : (s.setScript es).yw = s.yw := rfl
@[simp] theorem State.setScript_l (s : State) (es : List Event) : (s.setScript es).l = s.l := rfl
@[simp] theorem State.setScript_nf (s : State) (es : List Event) : (s.setScript es).nf = s.nf := rfl
@[simp] theorem State.setScript_fi (s : State) (es : List Event) : (s.setScript es).fi = s.fi := rfl
@[simp] theorem State.setScript_yOut (s : State) (es : List Event) : (s.setScript es).yOut = s.yOut := rfl
@[simp] theorem State.setScript_dinA (s : State) (es : List Event) : (s.setScript es).dinA = s.dinA := rfl
@[simp] theorem State.setScript_dinB (s : State) (es : List Event) : (s.setScript es).dinB = s.dinB := rfl
@[simp] theorem State.setScript_opIn (s : State) (es : List Event) : (s.setScript es).opIn = s.opIn := rfl
@[simp] theorem State.setScript_opOut (s : State) (es : List Event) : (s.setScript es).opOut = s.opOut := rfl
@[simp] theorem State.setScript_script (s : State) (es : List Event) : (s.setScript es).script = es := rfl
@[simp] theorem State.setScript_replies (s : State) (es : List Event) : (s.setScript es).replies = s.replies := rfl
@[simp] theorem State.setScript_marks (s : State) (es : List Event) : (s.setScript es).marks = s.marks := rfl

@[simp] theorem State.setOpOut_cfg (s : State) (o : OpOut) : (s.setOpOut o).cfg = s.cfg := rfl
@[simp] theorem State.setOpOut_phase (s : State) (o : OpOut) : (s.setOpOut o).phase = s.phase := rfl
@[simp] theorem State.setOpOut_aIn (s : State) (o : OpOut) : (s.setOpOut o).aIn = s.aIn := rfl
@[simp] theorem State.setOpOut_bIn (s : State) (o : OpOut) : (s.setOpOut o).bIn = s.bIn := rfl
@[simp] theorem State.setOpOut_x1 (s : State) (o : OpOut) : (s.setOpOut o).x1 = s.x1 := rfl
@[simp] theorem State.setOpOut_x2 (s : State) (o : OpOut) : (s.setOpOut o).x2 = s.x2 := rfl
@[simp] theorem State.setOpOut_yw (s : State) (o : OpOut) : (s.setOpOut o).yw = s.yw := rfl
@[simp] theorem State.setOpOut_l (s : State) (o : OpOut) : (s.setOpOut o).l = s.l := rfl
@[simp] theorem State.setOpOut_nf (s : State) (o : OpOut) : (s.setOpOut o).nf = s.nf := rfl
@[simp] theorem State.setOpOut_fi (s : State) (o : OpOut) : (s.setOpOut o).fi = s.fi := rfl
@[simp] theorem State.setOpOut_yOut (s : State) (o : OpOut) : (s.setOpOut o).yOut = s.yOut := rfl
@[simp] theorem State.setOpOut_dinA (s : State) (o : OpOut) : (s.setOpOut o).dinA = s.dinA := rfl
@[simp] theorem State.setOpOut_dinB (s : State) (o : OpOut) : (s.setOpOut o).dinB = s.dinB := rfl
@[simp] theorem State.setOpOut_opIn (s : State) (o : OpOut) : (s.setOpOut o).opIn = s.opIn := rfl
@[simp] theorem State.setOpOut_opOut (s : State) (o : OpOut) : (s.setOpOut o).opOut = o := rfl
@[simp] theorem State.setOpOut_script (s : State) (o : OpOut) : (s.setOpOut o).script = s.script := rfl
@[simp] theorem State.setOpOut_replies (s : State) (o : OpOut) : (s.setOpOut o).replies = s.replies := rfl
@[simp] theorem State.setOpOut_marks (s : State) (o : OpOut) : (s.setOpOut o).marks = s.marks := rfl

@[simp] theorem State.setYw_cfg (s : State) (yw : List (Option Sample)) : (s.setYw yw).cfg = s.cfg := rfl
@[simp] theorem State.setYw_phase (s : State) (yw : List (Option Sample)) : (s.setYw yw).phase = s.phase := rfl
@[simp] theorem State.setYw_aIn (s : State) (yw : List (Option Sample)) : (s.setYw yw).aIn = s.aIn := rfl
@[simp] theorem State.setYw_bIn (s : State) (yw : List (Option Sample)) : (s.setYw yw).bIn = s.bIn := rfl
@[simp] theorem State.setYw_x1 (s : State) (yw : List (Option Sample)) : (s.setYw yw).x1 = s.x1 := rfl
@[simp] theorem State.setYw_x2 (s : State) (yw : List (Option Sample)) : (s.setYw yw).x2 = s.x2 := rfl
@[simp] theorem State.setYw_yw (s : State) (yw : List (Option Sample)) : (s.setYw yw).yw = yw := rfl
@[simp] theorem State.setYw_l (s : State) (yw : List (Option Sample)) : (s.setYw yw).l = s.l := rfl
@[simp] theorem State.setYw_nf (s : State) (yw : List (Option Sample)) : (s.setYw yw).nf = s.nf := rfl
@[simp] theorem State.setYw_fi (s : State) (yw : List (Option Sample)) : (s.setYw yw).fi = s.fi := rfl
@[simp] theorem State.setYw_yOut (s : State) (yw : List (Option Sample)) : (s.setYw yw).yOut = s.yOut := rfl
@[simp] theorem State.setYw_dinA (s : State) (yw : List (Option Sample)) : (s.setYw yw).dinA = s.dinA := rfl
@[simp] theorem State.setYw_dinB (s : State) (yw : List (Option Sample)) : (s.setYw yw).dinB = s.dinB := rfl
@[simp] theorem State.setYw_opIn (s : State) (yw : List (Option Sample)) : (s.setYw yw).opIn = s.opIn := rfl
@[simp] theorem State.setYw_opOut (s : State) (yw : List (Option Sample)) : (s.setYw yw).opOut = s.opOut := rfl
@[simp] theorem State.setYw_script (s : State) (yw : List (Option Sample)) : (s.setYw yw).script = s.script := rfl
@[simp] theorem State.setYw_replies (s : State) (yw : List (Option Sample)) : (s.setYw yw).replies = s.replies := rfl
@[simp] theorem State.setYw_marks (s : State) (yw : List (Option Sample)) : (s.setYw yw).marks = s.marks := rfl

@[simp] theorem State.capture_cfg (s : State) : s.capture.cfg = s.cfg := rfl
@[simp] theorem State.capture_phase (s : State) : s.capture.phase = s.phase := rfl
@[simp] theorem State.capture_aIn (s : State) : s.capture.aIn = s.dinA := rfl
@[simp] theorem State.capture_bIn (s : State) : s.capture.bIn = s.dinB := rfl
@[simp] theorem State.capture_x1 (s : State) : s.capture.x1 = s.x1 := rfl
@[simp] theorem State.capture_x2 (s : State) : s.capture.x2 = s.x2 := rfl
@[simp] theorem State.capture_yw (s : State) : s.capture.yw = s.yw := rfl
@[simp] theorem State.capture_l (s : State) : s.capture.l = s.l := rfl
@[simp] theorem State.capture_nf (s : State) : s.capture.nf = s.nf := rfl
@[simp] theorem State.capture_fi (s : State) : s.capture.fi = s.fi := rfl
@[simp] theorem State.capture_yOut (s : State) : s.capture.yOut = [] := rfl
@[simp] theorem State.capture_dinA (s : State) : s.capture.dinA = s.dinA := rfl
@[simp] theorem State.capture_dinB (s : State) : s.capture.dinB = s.dinB := rfl
@[simp] theorem State.capture_opIn (s : State) : s.capture.opIn = s.opIn := rfl
@[simp] theorem State.capture_opOut (s : State) : s.capture.opOut = s.opOut := rfl
@[simp] theorem State.capture_script (s : State) : s.capture.script = s.script := rfl
@[simp] theorem State.capture_replies (s : State) : s.capture.replies = s.replies := rfl
@[simp] theorem State.capture_marks (s : State) : s.capture.marks = s.marks := rfl

@[simp] theorem State.idle_cfg (s : State) : s.idle.cfg = s.cfg := rfl
@[simp] theorem State.idle_phase (s : State) : s.idle.phase = Phase.idle.bits := rfl
@[simp] theorem State.idle_aIn (s : State) : s.idle.aIn = [] := rfl
@[simp] theorem State.idle_bIn (s : State) : s.idle.bIn = [] := rfl
@[simp] theorem State.idle_x1 (s : State) : s.idle.x1 = [] := rfl
@[simp] theorem State.idle_x2 (s : State) : s.idle.x2 = [] := rfl
@[simp] theorem State.idle_yw (s : State) : s.idle.yw = [] := rfl
@[simp] theorem State.idle_l (s : State) : s.idle.l = 0 := rfl
@[simp] theorem State.idle_nf (s : State) : s.idle.nf = 0 := rfl
@[simp] theorem State.idle_fi (s : State) : s.idle.fi = 0 := rfl
@[simp] theorem State.idle_yOut (s : State) : s.idle.yOut = [] := rfl
@[simp] theorem State.idle_dinA (s : State) : s.idle.dinA = s.dinA := rfl
@[simp] theorem State.idle_dinB (s : State) : s.idle.dinB = s.dinB := rfl
@[simp] theorem State.idle_opIn (s : State) : s.idle.opIn = s.opIn := rfl
@[simp] theorem State.idle_opOut (s : State) : s.idle.opOut = s.opOut := rfl
@[simp] theorem State.idle_script (s : State) : s.idle.script = s.script := rfl
@[simp] theorem State.idle_replies (s : State) : s.idle.replies = s.replies := rfl
@[simp] theorem State.idle_marks (s : State) : s.idle.marks = s.marks := rfl

/-- The reading of an encoding is the phase it encodes (10_state.md R21). -/
@[simp] theorem Phase.ofBits_bits (p : Phase) : Phase.ofBits p.bits = some p := by cases p <;> rfl

/-- A PHASE value reads as a phase exactly when it is that phase's encoding. -/
theorem Phase.ofBits_eq_some_iff (b : BitVec 3) (p : Phase) : Phase.ofBits b = some p ↔ b = p.bits := by
  revert b; cases p <;> decide

/-- The reserved encodings are 0b110 and 0b111 (70_reset_and_hazards.md R224). -/
theorem Phase.ofBits_eq_none_iff (b : BitVec 3) : Phase.ofBits b = none ↔ b = 0b110#3 ∨ b = 0b111#3 := by
  revert b; decide

/-- Two phases with one encoding are one phase. -/
@[simp] theorem Phase.bits_inj (p q : Phase) : p.bits = q.bits ↔ p = q := by cases p <;> cases q <;> decide

/-- The block is busy exactly in the four busy phases (10_state.md R27). -/
theorem State.busy_iff (s : State) : s.busy = true ↔
    s.phase = Phase.decode.bits ∨ s.phase = Phase.reconcile.bits ∨ s.phase = Phase.frames.bits ∨ s.phase = Phase.encode.bits := by
  have h : ∀ b : BitVec 3, (match Phase.ofBits b with
      | some .idle => false
      | some .decode => true
      | some .reconcile => true
      | some .frames => true
      | some .encode => true
      | some .done => false
      | none => false) = true ↔
      b = Phase.decode.bits ∨ b = Phase.reconcile.bits ∨ b = Phase.frames.bits ∨ b = Phase.encode.bits := by decide
  exact h s.phase

/-- The DONE bit is the phase DONE (10_state.md R27). -/
theorem State.isDone_iff (s : State) : s.isDone = true ↔ s.phase = Phase.done.bits := by simp [State.isDone]

end Sys2Proof.Machine
end

