-- ==== Sys2Proof/Laws/Step.lean ====
section
/-! SUPPORT. What a step can do, said once: inversion lemmas for the block's step, for the meanings, for the events and for the step. -/

namespace Sys2Proof.Machine

/-- The phase of a legal state is one of the six. -/
theorem State.legalPhase_iff (s : State) : s.legalPhase ↔ ∃ p, s.inPhase p := by
  simp only [State.legalPhase, Option.isSome_iff_exists, Phase.ofBits_eq_some_iff]

/-- A state with a reserved PHASE is not legal. -/
theorem State.not_legalPhase_iff (s : State) : ¬ s.legalPhase ↔ s.phase = 0b110#3 ∨ s.phase = 0b111#3 := by
  rw [← Phase.ofBits_eq_none_iff]; simp [State.legalPhase]

/-- In a given phase PHASE reads as that phase. -/
theorem State.ofBits_of_inPhase {s : State} {p : Phase} (h : s.inPhase p) : Phase.ofBits s.phase = some p := by
  rw [h]; exact Phase.ofBits_bits p

/-- Everything a block step that answers a next state can be (44_driver.md R162 to R165). -/
theorem blockStep_next_cases {s t : State} (h : blockStep s = .next t) :
    ((s.inPhase .idle ∨ s.inPhase .done) ∧ t = s) ∨
    (s.inPhase .decode ∧ t = { s with x1 := decodeBuf s.aIn, x2 := decodeBuf s.bIn, phase := Phase.reconcile.bits }) ∨
    (s.inPhase .reconcile ∧ t = { s with
      x1 := (reconcile s.x1 s.x2).1, x2 := (reconcile s.x1 s.x2).2, l := (reconcile s.x1 s.x2).1.length,
      nf := (reconcile s.x1 s.x2).1.length / s.cfg.fw, fi := 0,
      yw := List.replicate (reconcile s.x1 s.x2).1.length none, phase := Phase.frames.bits }) ∨
    (s.inPhase .frames ∧ s.fi < s.nf ∧ ∃ yw, frameMix s s.fi = some yw ∧ t = { s with yw := yw, fi := s.fi + 1 }) ∨
    (s.inPhase .frames ∧ s.fi = s.nf ∧ t = { s with phase := Phase.encode.bits }) ∨
    (s.inPhase .encode ∧ s.nf * s.cfg.fw ≤ s.yw.length ∧ ∃ ss, s.yw.take (s.nf * s.cfg.fw) = ss.map some ∧
      t = { s with yOut := encodeSeq ss, phase := Phase.done.bits }) := by
  cases hp : Phase.ofBits s.phase with
  | none => simp [blockStep, hp] at h
  | some p =>
    have hs : s.inPhase p := (Phase.ofBits_eq_some_iff _ _).1 hp
    cases p with
    | idle => simp only [blockStep, hp, Host.Outcome.next.injEq] at h; exact .inl ⟨.inl hs, h.symm⟩
    | done => simp only [blockStep, hp, Host.Outcome.next.injEq] at h; exact .inl ⟨.inr hs, h.symm⟩
    | decode =>
      simp only [blockStep, hp, decodeStep, Host.Outcome.next.injEq] at h
      exact .inr (.inl ⟨hs, h.symm⟩)
    | reconcile =>
      simp only [blockStep, hp, reconcileStep, Host.Outcome.next.injEq] at h
      exact .inr (.inr (.inl ⟨hs, h.symm⟩))
    | frames =>
      simp only [blockStep, hp, framesStep] at h
      by_cases h1 : s.fi < s.nf
      · cases hf : frameMix s s.fi with
        | none => simp [h1, hf] at h
        | some yw =>
          simp only [h1, hf, if_true, Host.Outcome.next.injEq] at h
          exact .inr (.inr (.inr (.inl ⟨hs, h1, yw, rfl, h.symm⟩)))
      · by_cases h2 : s.fi = s.nf
        · rw [if_neg h1, if_pos h2, Host.Outcome.next.injEq] at h
          exact .inr (.inr (.inr (.inr (.inl ⟨hs, h2, h.symm⟩))))
        · simp [h1, h2] at h
    | encode =>
      simp only [blockStep, hp, encodeStep] at h
      cases hm : memRead s.yw 0 (s.nf * s.cfg.fw) with
      | none => simp [hm] at h
      | some v =>
        cases hw : written v with
        | none => simp [hm, hw] at h
        | some ss =>
          simp only [hm, hw, Host.Outcome.next.injEq] at h
          obtain ⟨hb, rfl⟩ := (memRead_eq_some_iff _ _ _ _).1 hm
          refine .inr (.inr (.inr (.inr (.inr ⟨hs, by omega, ss, ?_, h.symm⟩))))
          simpa using (written_eq_some_iff _ _).1 hw

/-- Everything MIX can answer as a next state (44_driver.md R161). -/
theorem execMix_next_cases {s t : State} (h : execMix s = .next t) :
    (s.inPhase .idle ∧ s.dinA.length ≤ s.cfg.maxBytes ∧ s.dinB.length ≤ s.cfg.maxBytes ∧
      t = s.capture.setPhase .decode) ∨ ∃ m, t = s.refuse m := by
  unfold execMix at h
  split at h
  · cases h
  · split at h
    · cases h; exact .inr ⟨_, rfl⟩
    · cases h; exact .inl ⟨(Phase.ofBits_eq_some_iff _ _).1 ‹_›, by omega, by omega, rfl⟩
  · cases h; exact .inr ⟨_, rfl⟩

/-- Everything COLLECT can answer as a next state (44_driver.md R166). -/
theorem execCollect_next_cases {s t : State} (h : execCollect s = .next t) :
    (s.inPhase .done ∧ t = (s.reply (.collected s.yOut)).idle) ∨ (s.busy = true ∧ t = s) ∨ ∃ m, t = s.refuse m := by
  unfold execCollect at h
  split at h
  · cases h
  · cases h; exact .inr (.inr ⟨_, rfl⟩)
  · cases h; exact .inl ⟨(Phase.ofBits_eq_some_iff _ _).1 ‹_›, rfl⟩
  · rename_i p h1 h2 hp
    cases h
    refine .inr (.inl ⟨?_, rfl⟩)
    cases p <;> simp_all [State.busy]

/-- Everything an internal operation can answer as a next state: its result, one mixed frame, or a mark. -/
theorem exec_internal_next_cases {i : Instr} {s t : State} (hi : i.isHostCommand = false) (h : exec i s = .next t) :
    (∃ o, t = s.setOpOut o) ∨ (∃ yw, s.opIn.i < s.nf ∧ frameMix s s.opIn.i = some yw ∧ t = s.setYw yw) ∨
      t = s.refuse .frameOutOfRange := by
  cases i with
  | mix => cases hi
  | collect => cases hi
  | dec16 => cases h; exact .inl ⟨_, rfl⟩
  | enc16 => cases h; exact .inl ⟨_, rfl⟩
  | decode => cases h; exact .inl ⟨_, rfl⟩
  | reconcile => cases h; exact .inl ⟨_, rfl⟩
  | sampleMix => cases h; exact .inl ⟨_, rfl⟩
  | encode =>
    simp only [exec, execEncode] at h
    split at h
    · cases h; exact .inl ⟨_, rfl⟩
    · cases h
  | frameMix =>
    simp only [exec, execFrameMix] at h
    split at h
    · split at h
      · cases h; exact .inr (.inl ⟨_, ‹_›, ‹_›, rfl⟩)
      · cases h
    · cases h; exact .inr (.inr rfl)

/-- The only byte of MIX and the only byte of COLLECT (30_encoding.md R66). -/
theorem decodeByte_host_iff (c : Byte) :
    (decodeByte c = .ok .mix ↔ c = 0x01#8) ∧ (decodeByte c = .ok .collect ↔ c = 0x02#8) := by
  constructor <;> constructor
  · intro h; simp only [decodeByte] at h; split at h
    · assumption
    · repeat (split at h; · cases h)
      cases h
  · rintro rfl; rfl
  · intro h; simp only [decodeByte] at h; split at h
    · cases h
    · split at h
      · assumption
      · repeat (split at h; · cases h)
        cases h
  · rintro rfl; rfl

/-- Everything an event that is not held can answer as a next state. -/
theorem runEvent_next_cases {e : Event} {s t : State} (h : runEvent e s = .next t) :
    (∃ m, t = s.refuse m) ∨
    (e = .command 0x01#8 ∧ s.inPhase .idle ∧ s.dinA.length ≤ s.cfg.maxBytes ∧ s.dinB.length ≤ s.cfg.maxBytes ∧
      t = s.capture.setPhase .decode) ∨
    (e = .command 0x02#8 ∧ s.inPhase .done ∧ t = (s.reply (.collected s.yOut)).idle) ∨
    (e = .command 0x02#8 ∧ s.busy = true ∧ t = s) ∨
    (e = .block ∧ blockStep s = .next t) ∨ ((∃ c, e = .reset c) ∧ t = s.idle) ∨
    (e = .readStatus ∧ t = s.reply (.status s.status)) ∨ (e = .wait ∧ t = s) ∨
    (∃ buf, e = .writeA buf ∧ t = { s with dinA := buf }) ∨ (∃ buf, e = .writeB buf ∧ t = { s with dinB := buf }) ∨
    (∃ ops, e = .operands ops ∧ t = { s with opIn := ops }) ∨
    (∃ c, e = .internal c ∧ ((∃ o, t = s.setOpOut o) ∨
      ∃ yw, s.opIn.i < s.nf ∧ frameMix s s.opIn.i = some yw ∧ t = s.setYw yw)) := by
  cases e with
  | command c =>
    simp only [runEvent, hostCommand] at h
    cases hd : decodeByte c with
    | error r => simp only [hd] at h; cases h; exact .inl ⟨_, rfl⟩
    | ok i =>
      simp only [hd] at h
      cases hi : i.isHostCommand with
      | false => simp [hi] at h; exact .inl ⟨_, h.symm⟩
      | true =>
        simp only [hi, if_true] at h
        cases i with
        | mix =>
          obtain rfl := (decodeByte_host_iff c).1.1 hd
          rcases execMix_next_cases h with h' | h'
          · exact .inr (.inl ⟨rfl, h'⟩)
          · exact .inl h'
        | collect =>
          obtain rfl := (decodeByte_host_iff c).2.1 hd
          rcases execCollect_next_cases h with h' | h' | h'
          · exact .inr (.inr (.inl ⟨rfl, h'⟩))
          · exact .inr (.inr (.inr (.inl ⟨rfl, h'⟩)))
          · exact .inl h'
        | dec16 => cases hi
        | enc16 => cases hi
        | decode => cases hi
        | encode => cases hi
        | reconcile => cases hi
        | frameMix => cases hi
        | sampleMix => cases hi
  | internal c =>
    simp only [runEvent, issueInternal] at h
    cases hd : decodeByte c with
    | error r => simp only [hd] at h; cases h; exact .inl ⟨_, rfl⟩
    | ok i =>
      simp only [hd] at h
      cases hi : i.isHostCommand with
      | true => simp [hi] at h; exact .inl ⟨_, h.symm⟩
      | false =>
        simp only [hi, Bool.false_eq_true, if_false] at h
        rcases exec_internal_next_cases hi h with h' | h' | h'
        · exact .inr <| .inr <| .inr <| .inr <| .inr <| .inr <| .inr <| .inr <| .inr <| .inr <| .inr ⟨c, rfl, .inl h'⟩
        · exact .inr <| .inr <| .inr <| .inr <| .inr <| .inr <| .inr <| .inr <| .inr <| .inr <| .inr ⟨c, rfl, .inr h'⟩
        · exact .inl ⟨_, h'⟩
  | block => simp [runEvent] at h ⊢; tauto
  | reset c => cases h; simp
  | readStatus => cases h; simp
  | wait => cases h; simp
  | writeA buf => cases h; simp
  | writeB buf => cases h; simp
  | operands ops => cases h; simp

/-- Everything a step that answers a next state can be: the block's turn, or an event that is not held (log 1). -/
theorem step_next_cases {s t : State} (h : step s = .next t) :
    s.legalPhase ∧
    ((blockStep s = .next t ∧ (s.script = [] ∨ ∃ e rest, s.script = e :: rest ∧ held e s = true)) ∨
      ∃ e rest, s.script = e :: rest ∧ held e s = false ∧ runEvent e (s.setScript rest) = .next t) := by
  unfold step moveOrRefuse at h
  split at h
  · cases h
  · rename_i p hp
    refine ⟨by simp [State.legalPhase, hp], ?_⟩
    unfold move at h
    split at h
    · exact .inl ⟨h, .inl ‹_›⟩
    · rename_i e rest hs
      cases hh : held e s with
      | true => rw [hh] at h; exact .inl ⟨h, .inr ⟨e, rest, hs, hh⟩⟩
      | false => rw [hh] at h; exact .inr ⟨e, rest, hs, hh, h⟩

/-- A step of a legal state is its move. -/
theorem step_of_legal {s : State} (h : s.legalPhase) : step s = move s := by
  unfold step moveOrRefuse
  cases hp : Phase.ofBits s.phase with
  | none => simp [State.legalPhase, hp] at h
  | some p => rfl

end Sys2Proof.Machine
end

