-- ==== Sys2Proof/Tests/Slice0.lean ====
section
/-! SUPPORT. The model's own tests. Expected results come from the spec's worked examples and vectors (95_test_vectors.md and the rules'
own examples; each test names its source); the witnesses show that the hypotheses of each obligation can be met together. -/

namespace Sys2Proof.Tests
open Sys2Proof.Machine

/-! ## Helpers -/

/-- The reset state in another phase. -/
def atPhase (p : Phase) : State := { State.reset with phase := p.bits }

/-- The reset state with a script. -/
def withScript (es : List Event) (s : State) : State := { s with script := es }

/-- The reset state with operands for an internal operation. -/
def withOps (f : OpIn → OpIn) : State := { State.reset with opIn := f OpIn.reset }

/-- `<s0, s1, ...>` of 30_encoding.md R71. -/
def samples (xs : List Int) : List Sample := xs.map (BitVec.ofInt 16)

/-- V6's start, cut to its first frame and one trailing sample: FRAMES, L = 5, NF = 1, FI = 0. -/
def v6 : State :=
  { atPhase .frames with
    aIn := encodeSeq (samples [100, 200, 300, 400, 7]), bIn := encodeSeq (samples [0, 0, 0, 0, 1]),
    x1 := samples [100, 200, 300, 400, 7], x2 := samples [0, 0, 0, 0, 1], yw := List.replicate 5 none, l := 5, nf := 1, fi := 0 }

/-- V6 after its frame step and exit step. -/
def v6Encode : State :=
  { v6 with phase := Phase.encode.bits, fi := 1, yw := (samples [90, 180, 270, 360]).map some ++ [none] }

/-- binary32 with an attenuation past its range, 2^128. -/
def hugeAtten : Config := { Config.standard with fpFormat := .binary32, atten := ⟨2 ^ 128, 1⟩ }

/-- A field of the next state. -/
def fieldOf {α : Type} (o : Host.Outcome State Fault Refusal) (f : State → α) : Option α := (nextState o).map f

/-! ## Well-formedness: an ill-formed term for each check -/

theorem test_frame_width_zero_is_ill_formed : ({ Config.standard with fw := 0 }).wellFormed = false := by decide
theorem test_denominator_zero_is_ill_formed : ({ Config.standard with atten := ⟨9, 0⟩ }).wellFormed = false := by decide
theorem test_standard_is_well_formed : Config.standard.wellFormed = true ∧ Instr.mix.wellFormed = true := by decide

/-! ## Decoding: each word written out from the table of 30_encoding.md R66 -/

theorem test_decode_host_words :
    decodeTableWord 8 0b00000001 = some .mix ∧ decodeTableWord 8 0b00000010 = some .collect := by decide
theorem test_decode_codec_words :
    decodeTableWord 8 0b10000000 = some .dec16 ∧ decodeTableWord 8 0b10000001 = some .enc16 ∧
    decodeTableWord 8 0b10000010 = some .decode ∧ decodeTableWord 8 0b10000011 = some .encode := by decide
theorem test_decode_mixer_words :
    decodeTableWord 8 0b10000100 = some .reconcile ∧ decodeTableWord 8 0b10000101 = some .frameMix ∧
    decodeTableWord 8 0b10000110 = some .sampleMix := by decide
theorem test_decode_reserved_words :
    [0x00, 0x03, 0x7F, 0x87, 0xFF].map (decodeTableWord 8) = [none, none, none, none, none] := by decide

/-! ## Each instruction on the spec's vectors -/

/-- V1: (34, 12) is 4660 and (00, 80) is -32768. -/
theorem test_dec16_order_of_bytes :
    fieldOf (exec .dec16 (withOps fun o => { o with lo := 0x34, hi := 0x12 })) (·.opOut.sample.toInt) = some 4660 := by decide
theorem test_dec16_sign :
    fieldOf (exec .dec16 (withOps fun o => { o with lo := 0x00, hi := 0x80 })) (·.opOut.sample.toInt) = some (-32768) := by decide

/-- V2: -29491 is (CD, 8C) and 256 is (00, 01). -/
theorem test_enc16_negative :
    fieldOf (exec .enc16 (withOps fun o => { o with s := BitVec.ofInt 16 (-29491) })) (fun t => (t.opOut.lo, t.opOut.hi)) =
      some (0xCD#8, 0x8C#8) := by decide
theorem test_enc16_order_of_bytes :
    fieldOf (exec .enc16 (withOps fun o => { o with s := 256 })) (fun t => (t.opOut.lo, t.opOut.hi)) =
      some (0x00#8, 0x01#8) := by decide

/-- V3: the example of R104, and one byte. -/
theorem test_decode_drops_odd_byte :
    fieldOf (exec .decode (withOps fun o => { o with buf := [0x01, 0x00, 0xFF, 0xFF, 0x7F] })) (·.opOut.samples) =
      some (samples [1, -1]) := by decide
theorem test_decode_one_byte :
    fieldOf (exec .decode (withOps fun o => { o with buf := [0x05] })) (·.opOut.samples) = some [] := by decide

/-- V3: encode(<0, -29491>); and 10_state.md R24: a read of ⊥ faults. -/
theorem test_encode_example :
    fieldOf (exec .encode (withOps fun o => { o with seq := (samples [0, -29491]).map some })) (·.opOut.bytes) =
      some [0x00, 0x00, 0xCD, 0x8C] := by decide
theorem test_encode_unwritten_faults :
    faultOf (exec .encode (withOps fun o => { o with seq := [some 1, none] })) = some .readUnwritten := by decide

/-- V4: the rule's example and case (c). -/
theorem test_reconcile_pads_at_the_end :
    fieldOf (exec .reconcile (withOps fun o => { o with x1 := samples [5, 6], x2 := samples [7, 8, 9] }))
      (fun t => (t.opOut.y1, t.opOut.y2)) = some (samples [5, 6, 0], samples [7, 8, 9]) := by decide
theorem test_reconcile_one_empty :
    fieldOf (exec .reconcile (withOps fun o => { o with x2 := samples [-1, -2, -3] }))
      (fun t => (t.opOut.y1, t.opOut.y2)) = some (samples [0, 0, 0], samples [-1, -2, -3]) := by decide

/-- R131's example, and V6: a frame index at NF is refused. -/
theorem test_frameMix_example :
    fieldOf (exec .frameMix v6) (·.yw) = some ((samples [90, 180, 270, 360]).map some ++ [none]) := by decide
theorem test_frameMix_out_of_range :
    fieldOf (exec .frameMix { v6 with opIn := { OpIn.reset with i := 1 } }) (fun t => (t.yw, t.marks)) =
      some (List.replicate 5 none, [.frameOutOfRange]) := by decide

/-- V5: the exact multiple of 10 that needs round to nearest, and the first negative sum that clamps, in binary32. -/
theorem test_sampleMix_exact_multiple :
    fieldOf (exec .sampleMix (withOps fun o => { o with s1 := 5, s2 := 5 })) (·.opOut.sample.toInt) = some 9 := by decide
theorem test_sampleMix_negative_clamp_binary32 :
    (sampleMix { Config.standard with fpFormat := .binary32 } (BitVec.ofInt 16 (-32768)) (BitVec.ofInt 16 (-3641))).toInt =
      -32768 := by decide

/-- V5: the binary64 value of the attenuated sum at S = -32768 is -0.9 (bits BFECCCCCCCCCCCCD). -/
theorem test_attenuated_sum_bits :
    fpBits .binary64 (attenuate Config.standard (mixSum Config.standard (BitVec.ofInt 16 (-32768)) 0)) =
      some 0xBFECCCCCCCCCCCCD := by decide

/-- IEEE-754 past the range of binary32: 2^128 converts to infinity under round to nearest and to the largest finite number
toward zero; the negative zero has the sign bit alone; infinity minus infinity and zero by zero are NaN. -/
theorem test_overflow_and_special_values :
    fpBits .binary32 (fpLit hugeAtten ⟨2 ^ 128, 1⟩) = some 0x7F800000 ∧
    fpBits .binary32 (fpLit { hugeAtten with fpRounding := .towardZero } ⟨2 ^ 128, 1⟩) = some 0x7F7FFFFF ∧
    fpBits .binary32 (fpMul hugeAtten (fpInt hugeAtten (-1)) (fpInt hugeAtten 0)) = some 0x80000000 ∧
    fpAdd hugeAtten (.inf true) (.inf false) = .nan ∧ fpDiv hugeAtten (fpInt hugeAtten 0) (fpInt hugeAtten 0) = .nan := by decide

/-- With an infinite attenuation a positive sum clamps at 1.0 and a zero sum attenuates to NaN. -/
theorem test_infinite_attenuation :
    (sampleMix hugeAtten 1#16 0#16).toInt = 32767 ∧ attenuate hugeAtten (mixSum hugeAtten 0#16 0#16) = .nan := by decide

/-- V7, MAX_BYTES = 8: ten bytes are refused, eight are accepted. -/
theorem test_mix_input_too_long :
    fieldOf (exec .mix { State.reset with cfg := { Config.standard with maxBytes := 8 }, dinA := List.replicate 10 0 })
      (fun t => (t.phase, t.marks)) = some (0b000#3, [.inputTooLong]) := by decide
theorem test_mix_accepts_full_length :
    fieldOf (exec .mix { State.reset with
      cfg := { Config.standard with maxBytes := 8 }, dinA := List.replicate 8 1, dinB := List.replicate 8 2 })
      (fun t => (t.phase, t.aIn, t.bIn)) = some (0b001#3, List.replicate 8 1#8, List.replicate 8 2#8) := by decide

/-- V7: COLLECT in DONE and in IDLE. -/
theorem test_collect_hands_over :
    fieldOf (exec .collect { atPhase .done with yOut := [0x5A, 0x00] }) (fun t => (t.phase, t.yOut, t.replies)) =
      some (0b000#3, [], [.collected [0x5A, 0x00]]) := by decide
theorem test_collect_in_idle_refused :
    fieldOf (exec .collect State.reset) (fun t => (t.phase, t.marks)) = some (0b000#3, [.noCallInProgress]) := by decide

/-! ## Steps -/

/-- V6: the ENCODE step. -/
theorem test_step_encode :
    fieldOf (step v6Encode) (fun t => (t.phase, t.yOut)) =
      some (0b101#3, [0x5A, 0x00, 0xB4, 0x00, 0x0E, 0x01, 0x68, 0x01]) := by decide

/-- V7: STATUS in DECODE reads 0x01, and in DONE 0x02. -/
theorem test_step_status :
    fieldOf (step (withScript [.readStatus] (atPhase .decode))) (·.replies) = some [.status 0x01#8] ∧
    fieldOf (step (withScript [.readStatus] (atPhase .done))) (·.replies) = some [.status 0x02#8] := by decide

/-- V7: the phase is checked before the length (FRAMES, ten bytes, MAX_BYTES = 8). -/
theorem test_step_phase_before_length :
    fieldOf (step (withScript [.command 0x01] { v6 with
      cfg := { Config.standard with maxBytes := 8 }, dinA := List.replicate 10 0 })) (·.marks) = some [.callInProgress] := by decide

/-- P4: reset in the middle of a call, with a command in the same instant (60_exceptions.md R204(a)). -/
theorem test_step_reset_alone :
    nextState (step (withScript [.reset (some 0x01)] v6)) = some (withScript [] State.reset) := by decide

/-- 70_reset_and_hazards.md R224. -/
theorem test_step_reserved_phase :
    refusalOf (step (withScript [.reset none] { State.reset with phase := 0b111 })) = some .reservedPhase := by decide

/-- Every row of the table runs as the first instruction after reset (log 2). -/
theorem test_first_instruction_runs :
    [0x01, 0x02, 0x80, 0x81, 0x82, 0x83, 0x84, 0x85, 0x86].all
      (fun w => (nextState (step (State.reset.withFetchWord 8 w))).isSome) = true := by decide

/-! ## Witnesses: the hypotheses of the obligations can be met together -/

theorem witness_CommandTable :
    [0x00, 0x03, 0x7F, 0x87, 0xFF].all (fun n => (BitVec.ofNat 8 n).toNat == n) = true ∧ decodeByte 0x86#8 = .ok .sampleMix :=
  ⟨by decide, rfl⟩

theorem witness_DecodeEncodeRoundTrip :
    Instr.frameMix.wellFormed = true ∧ decode [0x85#8, 0x07#8] = .ok (.frameMix, [0x07#8]) := ⟨rfl, rfl⟩

theorem witness_StepRunsHostCommand :
    (withScript [.command 0x02] (atPhase .done)).legalPhase ∧ decodeByte 0x02#8 = .ok .collect ∧
    Instr.collect.isHostCommand = true ∧ ¬(Instr.collect = .collect ∧ (atPhase .done).busy = true) :=
  ⟨by decide, rfl, rfl, by decide⟩

theorem witness_StepRunsInternalOperation :
    (withScript [.internal 0x80] State.reset).legalPhase ∧ decodeByte 0x80#8 = .ok .dec16 ∧ Instr.dec16.isHostCommand = false :=
  ⟨by decide, rfl, rfl⟩

theorem witness_StepRunsFetchedWord :
    State.reset.legalPhase ∧ decodeTableWord 8 0x86 = some .sampleMix ∧
    ¬(Instr.sampleMix = .collect ∧ State.reset.busy = true) := by decide

theorem witness_StepGivesBlockItsTurn :
    State.reset.script = [] ∧ (withScript [.block] v6).legalPhase ∧ (withScript [.command 0x02] v6).busy = true ∧
    ¬ (withScript [.wait] v6).inPhase .done ∧ (withScript [.wait] (atPhase .done)).inPhase .done ∧
    (atPhase .done).legalPhase ∧ State.reset.legalPhase := by decide

theorem witness_HostCodesRefused :
    (withScript [.command 0x7F] v6).legalPhase ∧ (withScript [.command 0x7F] v6).script = .command 0x7F :: [] ∧
    (0x00#8).toNat = 0x00 ∧ 0x03 ≤ (0x03#8).toNat ∧ (0x7F#8).toNat ≤ 0x7F ∧ 0x87 ≤ (0x87#8).toNat ∧ 0x87 ≤ (0xFF#8).toNat ∧
    0x80 ≤ (0x80#8).toNat ∧ (0x86#8).toNat ≤ 0x86 := by decide

theorem witness_ReservedPhasesRefusedAndNeverReached :
    ({ State.reset with phase := 0b110 }).phase = 0b110#3 ∧ ({ State.reset with phase := 0b111 }).phase = 0b111#3 ∧
    step State.reset = .next State.reset := ⟨rfl, rfl, rfl⟩

theorem witness_ResetSetsEveryElement :
    (withScript [.reset (some 0x01)] v6).legalPhase ∧
    (withScript [.reset (some 0x01)] v6).dinA.length ≤ (withScript [.reset (some 0x01)] v6).cfg.maxBytes ∧
    (withScript [.reset (some 0x01)] v6).dinB.length ≤ (withScript [.reset (some 0x01)] v6).cfg.maxBytes := by decide

theorem witness_ResetAbandonsTheCall :
    (withScript [.reset none, .command 0x02] v6).legalPhase ∧
    (withScript [.reset none, .command 0x02] v6).script = .reset none :: .command 0x02#8 :: [] := by decide

theorem witness_StatusLayout :
    (withScript [.readStatus] v6).legalPhase ∧ (withScript [.readStatus] v6).script = .readStatus :: [] := by decide

theorem witness_MixAccepted :
    State.reset.inPhase .idle ∧ State.reset.dinA.length ≤ State.reset.cfg.maxBytes ∧
    State.reset.dinB.length ≤ State.reset.cfg.maxBytes := by decide

theorem witness_MixRefused :
    v6.legalPhase ∧ ¬ v6.inPhase .idle ∧ State.reset.inPhase .idle ∧ State.reset.legalPhase ∧
    ({ State.reset with cfg := { Config.standard with maxBytes := 8 }, dinB := List.replicate 9 0 }).dinB.length >
      ({ Config.standard with maxBytes := 8 }).maxBytes := by decide

theorem witness_CollectHandsOver : (atPhase .done).inPhase .done := by decide

theorem witness_CollectRefusedOrHeld :
    State.reset.inPhase .idle ∧ (atPhase .decode).inPhase .decode ∧ (atPhase .encode).inPhase .encode := by decide

theorem witness_HostAndBlockNeverCompete :
    (atPhase .decode).legalPhase ∧ (atPhase .decode).busy = true ∧ (atPhase .done).legalPhase ∧
    (atPhase .done).busy = false := by decide

theorem witness_PhaseSteps :
    (atPhase .decode).inPhase .decode ∧ (atPhase .reconcile).inPhase .reconcile := by decide

theorem witness_FramesPhaseSteps :
    v6.inPhase .frames ∧ v6.fi < v6.nf ∧ v6.fi * v6.cfg.fw + v6.cfg.fw ≤ v6.x1.length ∧
    v6.fi * v6.cfg.fw + v6.cfg.fw ≤ v6.x2.length ∧ v6.fi * v6.cfg.fw + v6.cfg.fw ≤ v6.yw.length ∧
    ({ v6 with fi := 1 }).inPhase .frames ∧ ({ v6 with fi := 1 }).fi = ({ v6 with fi := 1 }).nf := by decide

theorem witness_EncodePhaseStep :
    v6Encode.inPhase .encode ∧ (samples [90, 180, 270, 360]).length = v6Encode.nf * v6Encode.cfg.fw ∧
    ∀ k : Nat, k < v6Encode.nf * v6Encode.cfg.fw → v6Encode.yw[k]? = some (samples [90, 180, 270, 360])[k]? := by decide

theorem witness_UnwrittenReadFaults :
    none ∈ (withOps fun o => { o with seq := [none] }).opIn.seq ∧ ({ v6 with phase := Phase.encode.bits }).inPhase .encode ∧
    v6.nf * v6.cfg.fw ≤ v6.yw.length ∧ 3 < v6.nf * v6.cfg.fw ∧ v6.yw[3]? = some none := by decide

theorem witness_DecodeBufferValue : 1 < ([0x01#8, 0x00, 0xFF, 0xFF, 0x7F] : List Byte).length / 2 := by decide

theorem witness_EncodeSequenceValue : 1 < (samples [0, -29491]).length := by decide

theorem witness_CodecRoundTrips :
    ([0x00#8, 0x80] : List Byte).length % 2 = 0 ∧ ([0x00#8, 0x80, 0x34] : List Byte).length % 2 = 1 := by decide

theorem witness_EncodeCompletes :
    (withOps fun o => { o with seq := (samples [0, -29491]).map some }).opIn.seq = (samples [0, -29491]).map some := by decide

theorem witness_FrameMixWritesItsSlice :
    v6.opIn.i < v6.nf ∧ v6.opIn.i * v6.cfg.fw + v6.cfg.fw ≤ v6.x1.length ∧
    v6.opIn.i * v6.cfg.fw + v6.cfg.fw ≤ v6.x2.length ∧ v6.opIn.i * v6.cfg.fw + v6.cfg.fw ≤ v6.yw.length := by decide

theorem witness_FrameMixOutOfRangeRefused : State.reset.nf ≤ State.reset.opIn.i := by decide

theorem witness_InternalOperationsFrame :
    Instr.frameMix.isHostCommand = false ∧ (nextState (exec .frameMix v6)).isSome = true ∧
    Instr.dec16.isHostCommand = false ∧ (nextState (exec .dec16 v6)).isSome = true := by decide

theorem witness_ReconcileValue : 2 < max (samples [5, 6]).length (samples [7, 8, 9]).length := by decide

theorem witness_LiteralBitPatterns :
    Config.standard.fpRounding = .nearestEven ∧ Config.standard.fpFormat = .binary64 ∧
    ({ Config.standard with fpFormat := .binary32 }).fpFormat = .binary32 := by decide

theorem witness_OnlyTheSumMatters :
    (BitVec.ofInt 16 20000 : Sample).toInt + (BitVec.ofInt 16 16408 : Sample).toInt =
      (BitVec.ofInt 16 29000 : Sample).toInt + (BitVec.ofInt 16 7408 : Sample).toInt := by decide

theorem witness_specArithmetic :
    specArithmetic Config.standard ∧ specArithmetic { Config.standard with fpFormat := .binary32 } := by decide

theorem witness_InfiniteAttenuation :
    hugeAtten.wellFormed = true ∧ fpLit hugeAtten hugeAtten.atten = .inf false ∧
    fpLit { hugeAtten with atten := ⟨-(2 ^ 128), 1⟩ } ⟨-(2 ^ 128), 1⟩ = .inf true ∧
    (0#16 : Sample).toInt + (0#16 : Sample).toInt = 0 ∧ 0 < (1#16 : Sample).toInt + (0#16 : Sample).toInt ∧
    (0xFFFF#16 : Sample).toInt + (0#16 : Sample).toInt < 0 := by decide

theorem witness_DirectedRoundingDiffersExactlyThere :
    ({ Config.standard with fpRounding := .towardZero }).atten = ⟨9, 10⟩ ∧
    ({ Config.standard with fpRounding := .towardZero }).fpRounding = .towardZero ∧
    ({ Config.standard with fpRounding := .towardNegative }).fpRounding = .towardNegative ∧
    (sampleMix { Config.standard with fpRounding := .towardNegative } 10#16 0#16).toInt = 8 ∧
    (sampleMix { Config.standard with fpRounding := .towardZero } (BitVec.ofInt 16 (-10)) 0#16).toInt = -8 := by decide

/-- Every sum named in the corner cases is the sum of two samples. -/
theorem witness_SampleMixCornerCases :
    ([(-32768, -3641), (-20000, -16408), (-10, 0), (-1, -1), (1, 1), (5, 5), (20000, 16407), (20000, 16408), (20000, 16409),
      (-1, 0), (1, 0)] : List (Int × Int)).map
      (fun p => (BitVec.ofInt 16 p.1 : Sample).toInt + (BitVec.ofInt 16 p.2 : Sample).toInt) =
    [-36409, -36408, -10, -2, 2, 10, 36407, 36408, 36409, -1, 1] := by decide

theorem witness_SampleMixLaws :
    (BitVec.ofInt 16 (-20000) : Sample).toInt + (BitVec.ofInt 16 (-16408) : Sample).toInt =
      -((BitVec.ofInt 16 20000 : Sample).toInt + (BitVec.ofInt 16 16408 : Sample).toInt) ∧
    (BitVec.ofInt 16 (-20000) : Sample).toInt + (BitVec.ofInt 16 (-16409) : Sample).toInt =
      -((BitVec.ofInt 16 20000 : Sample).toInt + (BitVec.ofInt 16 16409 : Sample).toInt) := by decide

theorem witness_StepFromReset :
    step State.reset = .next State.reset ∧ blockStep State.reset = .next State.reset := ⟨rfl, rfl⟩

theorem witness_CallInvariant_before_a_frame : (withScript [.block] v6).callInv :=
  ⟨by decide, by decide, by decide, by decide, by decide, by decide, by decide, by decide, by decide, by decide, by decide⟩

theorem witness_CallInvariant_before_encode : v6Encode.callInv :=
  ⟨by decide, by decide, by decide, by decide, by decide, by decide, by decide, by decide, by decide, by decide, by decide⟩

theorem witness_CallInvariantKept : (nextState (step (withScript [.block] v6))).isSome = true := by decide

theorem witness_StepStopsAtMostOnEncodeOfUnwritten : ¬ (withScript [.block] v6).issuesUnwritten := by decide

theorem witness_SpecInvariantsOfReachedStates :
    (nextState (Host.Core.run core 1 (withScript [.block] v6))).isSome = true := by decide

/-- The start of a call with one frame. -/
def callStart (es : List Event) : State :=
  { State.reset with dinA := encodeSeq (samples [1000, 2000, 3000, 4000]), dinB := encodeSeq (samples [100, -200]), script := es }

theorem witness_WholeCallReturnsMix :
    (callStart [.command 0x01, .command 0x02]).inPhase .idle ∧
    (callStart [.command 0x01, .command 0x02]).script = .command 0x01#8 :: .command 0x02#8 :: [] ∧
    (callStart []).dinA.length ≤ (callStart []).cfg.maxBytes ∧ (callStart []).dinB.length ≤ (callStart []).cfg.maxBytes ∧
    callFrames (callStart []).cfg (callStart []).dinA (callStart []).dinB = 1 := by decide

theorem witness_DoneAfterExactlyNFPlusFour :
    (callStart [.command 0x01]).inPhase .idle ∧ (callStart [.command 0x01]).script = [.command 0x01#8] ∧
    0 < callFrames (callStart []).cfg (callStart []).dinA (callStart []).dinB + 4 ∧
    callFrames (callStart []).cfg (callStart []).dinA (callStart []).dinB + 4 ≤ 5 := by decide

theorem witness_HostWritesAfterMixDoNotReachTheCall :
    (callStart [.command 0x01, .writeA [], .writeB [], .command 0x02]).inPhase .idle ∧
    (callStart [.command 0x01, .writeA [], .writeB [], .command 0x02]).script =
      .command 0x01#8 :: .writeA [] :: .writeB [] :: .command 0x02#8 :: [] := by decide

theorem witness_FrameWidthChangesOnlyTheLength :
    7 < (mixF Config.standard (callStart []).dinA []).length ∧
    7 < (mixF { Config.standard with fw := 1 } (callStart []).dinA []).length := by decide

theorem witness_DanglingByteHasNoInfluence : ([0x01#8, 0x00] : List Byte).length % 2 = 0 := by decide

theorem witness_PipelineAppliesTheOperations :
    (atPhase .decode).inPhase .decode ∧ (nextState (blockStep (atPhase .decode))).isSome = true ∧
    (atPhase .reconcile).inPhase .reconcile ∧ (nextState (blockStep (atPhase .reconcile))).isSome = true ∧
    v6.inPhase .frames ∧ v6.fi < v6.nf ∧ (nextState (blockStep v6)).isSome = true ∧
    (nextState (exec .frameMix { v6 with opIn := { v6.opIn with i := v6.fi } })).isSome = true ∧
    v6Encode.inPhase .encode ∧ (nextState (blockStep v6Encode)).isSome = true ∧
    (nextState (exec .encode { v6Encode with
      opIn := { v6Encode.opIn with seq := v6Encode.yw.take (v6Encode.nf * v6Encode.cfg.fw) } })).isSome = true := by decide

end Sys2Proof.Tests
end

section
/-! PROOF. The decoder and the encoder are inverse to each other (30_encoding.md R66, R70): what `decodeByte` answers is said once by
`decodeByte_eq_ok_iff`, what `decode` answers by `decode_eq_ok_iff`, and the round trip reads off from the latter. -/

namespace Sys2Proof

@[simp] theorem encode_length (i : Instr) : (encode i).length = 1 := rfl

@[simp] theorem decodeByte_encodeByte (i : Instr) : decodeByte (encodeByte i) = .ok i := by
  cases i <;> rfl

/-- No two codes name the same instruction: each row of the decoder's table answers the instruction whose code the row tests. -/
theorem eq_encodeByte_of_decodeByte {c : Byte} {i : Instr} (h : decodeByte c = .ok i) : c = encodeByte i := by
  unfold decodeByte at h
  split_ifs at h <;> cases h <;> assumption

theorem decodeByte_eq_ok_iff {c : Byte} {i : Instr} : decodeByte c = .ok i ↔ c = encodeByte i :=
  ⟨eq_encodeByte_of_decodeByte, fun h => h ▸ decodeByte_encodeByte i⟩

theorem decode_cons_eq_ok_iff {c : Byte} {cs rest : List Byte} {i : Instr} :
    decode (c :: cs) = .ok (i, rest) ↔ decodeByte c = .ok i ∧ cs = rest := by
  cases hd : decodeByte c with
  | ok j => simp [decode, hd]
  | error r => simp [decode, hd]

/-- The decoder reads an instruction exactly from that instruction's encoding, and leaves what follows it. -/
theorem decode_eq_ok_iff {bs rest : List Byte} {i : Instr} :
    decode bs = .ok (i, rest) ↔ bs = encode i ++ rest := by
  cases bs with
  | nil => simp [decode, encode]
  | cons c cs => simp [decode_cons_eq_ok_iff, decodeByte_eq_ok_iff, encode]

/-- Settles O2: both directions are the two sides of `decode_eq_ok_iff`. -/
theorem decodeEncodeRoundTrip : Obligations.DecodeEncodeRoundTrip := by
  intro i rest _
  exact ⟨encode_length i, decode_eq_ok_iff.mpr rfl, fun _ => decode_eq_ok_iff.mp⟩

end Sys2Proof
end

section
/-! PROOF. The codec's values (40_codec.md R100, R101, R103, R105). One sample: `dec16` and `enc16` read as unsigned numbers, then
through the readings `sext16` and `zext16` of 00_scope.md R10. A whole buffer: its length and its elements, by the recursion of
`decodeBuf` and of `encodeSeq`. -/

namespace Sys2Proof.Machine

/-- The shifted high byte and the low byte share no bit, so joining them is adding them. -/
theorem dec16_toNat (lo hi : Byte) : (dec16 lo hi).toNat = hi.toNat * 256 + lo.toNat := by
  have hjoin : hi.toNat <<< 8 + lo.toNat = hi.toNat <<< 8 ||| lo.toNat := Nat.shiftLeft_add_eq_or_of_lt lo.isLt hi.toNat
  have hlo := lo.isLt
  have hhi := hi.isLt
  simp (disch := omega) only [dec16, BitVec.toNat_or, BitVec.toNat_shiftLeft, BitVec.truncate_eq_setWidth,
    BitVec.toNat_setWidth, Nat.mod_eq_of_lt, ← hjoin]
  omega

theorem enc16_fst_toNat (s : Sample) : (enc16 s).1.toNat = s.toNat % 256 := by
  simp [enc16]

theorem enc16_snd_toNat (s : Sample) : (enc16 s).2.toNat = s.toNat / 256 := by
  have := s.isLt
  simp only [enc16, BitVec.extractLsb'_toNat, Nat.shiftRight_eq_div_pow]
  omega

/-- Settles O23: the sign of the sample is the high bit of `hi`. -/
theorem decSixteenValue : Obligations.DecSixteenValue := by
  refine ⟨decodeByte_encodeByte .dec16, fun lo hi => ?_⟩
  have := lo.isLt
  rw [toInt_eq_sext16, dec16_toNat, sext16]
  split_ifs <;> omega

/-- Settles O24: the two bytes are those of `s.toNat`, which is `zext16` of the sample. -/
theorem encSixteenValue : Obligations.EncSixteenValue := by
  refine ⟨decodeByte_encodeByte .enc16, fun s => ?_⟩
  have hz : (if 0 ≤ s.toInt then s.toInt else s.toInt + 65536).toNat = s.toNat := by
    rw [← zext16_toInt s, zext16]
    split_ifs <;> rfl
  rw [hz]
  exact ⟨enc16_fst_toNat s, enc16_snd_toNat s⟩

@[simp] theorem decodeBuf_length (buf : List Byte) : (decodeBuf buf).length = buf.length / 2 := by
  induction buf using decodeBuf.induct with
  | case1 lo hi rest ih =>
    simp only [decodeBuf, List.length_cons, ih]
    omega
  | case2 b => simp [decodeBuf]
  | case3 => rfl

theorem decodeBuf_getElem? (buf : List Byte) (k : Nat) (hk : k < buf.length / 2) :
    (decodeBuf buf)[k]? = some (dec16 (buf.getD (2 * k) 0#8) (buf.getD (2 * k + 1) 0#8)) := by
  induction buf using decodeBuf.induct generalizing k with
  | case1 lo hi rest ih =>
    cases k with
    | zero => rfl
    | succ k =>
      have hk' : k < rest.length / 2 := by simp only [List.length_cons] at hk; omega
      simpa [decodeBuf, Nat.mul_succ] using ih k hk'
  | case2 b => simp at hk
  | case3 => simp at hk

/-- Settles O26: the length, and sample `k` from the bytes at `2k` and `2k + 1`. -/
theorem decodeBufferValue : Obligations.DecodeBufferValue :=
  fun buf => ⟨decodeBuf_length buf, decodeBuf_getElem? buf⟩

@[simp] theorem encodeSeq_length (ss : List Sample) : (encodeSeq ss).length = 2 * ss.length := by
  induction ss with
  | nil => rfl
  | cons s ss ih => simp [encodeSeq, ih, Nat.mul_succ]

theorem encodeSeq_getElem? (ss : List Sample) (k : Nat) (hk : k < ss.length) :
    (encodeSeq ss)[2 * k]? = some (enc16 (ss.getD k 0#16)).1 ∧
    (encodeSeq ss)[2 * k + 1]? = some (enc16 (ss.getD k 0#16)).2 := by
  induction ss generalizing k with
  | nil => simp at hk
  | cons s ss ih =>
    cases k with
    | zero => exact ⟨rfl, rfl⟩
    | succ k => simpa [encodeSeq, Nat.mul_succ] using ih k (by simpa using hk)

/-- Settles O27: the length, and bytes `2k` and `2k + 1` from sample `k`. -/
theorem encodeSequenceValue : Obligations.EncodeSequenceValue :=
  ⟨rfl, fun ss => ⟨encodeSeq_length ss, encodeSeq_getElem? ss⟩⟩

end Sys2Proof.Machine
end

section
/-! PROOF. The reconciler's value (41_reconciler.md R120): each result is its input padded with silence to the longer length, so its
length and elements are those of `padTo`. -/

namespace Sys2Proof.Machine

/-- Padding to a length that is not below the sequence's own reaches it exactly. -/
theorem padTo_length {n : Nat} {x : List Sample} (h : x.length ≤ n) : (padTo n x).length = n := by
  simp [padTo, h]

/-- Below the sequence's length padding leaves its elements (R121(d)); from there on they are silence (R121(e)). -/
theorem padTo_getElem? {n k : Nat} (x : List Sample) (hk : k < n) :
    (padTo n x)[k]? = some (if k < x.length then x.getD k 0#16 else 0#16) := by
  by_cases hx : k < x.length
  · simp [padTo, List.getElem?_append_left hx, hx]
  · have hpad : k - x.length < n - x.length := by omega
    simp [padTo, List.getElem?_append_right (Nat.le_of_not_lt hx), hx, hpad]

/-- In the phase RECONCILE the block's turn is the RECONCILE phase step (44_driver.md R163). -/
theorem blockStep_of_inPhase_reconcile {s : State} (h : s.inPhase .reconcile) : blockStep s = reconcileStep s := by
  simp only [blockStep, State.ofBits_of_inPhase h]

/-- Settles O34: both results are `padTo` the maximum of the two lengths, and the phase step stores them and the first one's
length. -/
theorem reconcileValue : Obligations.ReconcileValue := by
  refine ⟨decodeByte_encodeByte .reconcile, fun x1 x2 => ⟨?_, ?_, fun k hk => ⟨?_, ?_⟩⟩, fun s hs => ?_⟩
  · exact padTo_length (Nat.le_max_left _ _)
  · exact padTo_length (Nat.le_max_right _ _)
  · exact padTo_getElem? x1 hk
  · exact padTo_getElem? x2 hk
  · exact ⟨_, blockStep_of_inPhase_reconcile hs, rfl, rfl⟩

end Sys2Proof.Machine
end

section
/-! PROOF. The phase steps of the block (44_driver.md R162 to R165): which step the block's turn is in each phase, then what that step
answers. The frame step stands on `frameMix_isSome` and `frameMix_spec`; the ENCODE step on its read of YW's first NF*FW elements,
which answers the samples when each of those elements is one. -/

namespace Sys2Proof.Machine

/-- In the phase DECODE the block's turn is the DECODE phase step (44_driver.md R162). -/
theorem blockStep_of_inPhase_decode {s : State} (h : s.inPhase .decode) : blockStep s = decodeStep s := by
  simp only [blockStep, State.ofBits_of_inPhase h]

/-- In the phase FRAMES the block's turn is the frame step or the exit step (44_driver.md R164). -/
theorem blockStep_of_inPhase_frames {s : State} (h : s.inPhase .frames) : blockStep s = framesStep s := by
  simp only [blockStep, State.ofBits_of_inPhase h]

/-- In the phase ENCODE the block's turn is the ENCODE phase step (44_driver.md R165). -/
theorem blockStep_of_inPhase_encode {s : State} (h : s.inPhase .encode) : blockStep s = encodeStep s := by
  simp only [blockStep, State.ofBits_of_inPhase h]

/-- While FI is below NF the FRAMES phase takes the frame step (42_frame_mixer.md R132). -/
theorem framesStep_of_frameMix {s : State} {yw : List (Option Sample)} (hlt : s.fi < s.nf) (hyw : frameMix s s.fi = some yw) :
    framesStep s = .next { s with yw := yw, fi := s.fi + 1 } := by
  simp only [framesStep, hlt, if_true, hyw]

/-- At FI = NF the FRAMES phase takes the exit step (44_driver.md R164). -/
theorem framesStep_of_fi_eq_nf {s : State} (heq : s.fi = s.nf) : framesStep s = .next (s.setPhase .encode) := by
  rw [framesStep, if_neg heq.not_lt, if_pos heq]

/-- A read of the first elements of a buffer answers `v` when those elements are the elements of `v`. -/
theorem memRead_zero_of_getElem? {α : Type} {buf v : List α} (h : ∀ k : Nat, k < v.length → buf[k]? = v[k]?) :
    memRead buf 0 v.length = some v := by
  have hpre : v <+: buf := List.prefix_iff_getElem?.mpr fun k hk => by rw [h k hk, List.getElem?_eq_getElem hk]
  rw [memRead_eq_some_iff, List.drop_zero, Nat.zero_add]
  exact ⟨hpre.length_le, List.prefix_iff_eq_take.mp hpre⟩

/-- On a written prefix of NF*FW samples the ENCODE phase step encodes those samples (44_driver.md R165). -/
theorem encodeStep_of_written {s : State} {ss : List Sample} (hread : memRead s.yw 0 (s.nf * s.cfg.fw) = some (ss.map some)) :
    encodeStep s = .next ({ s with yOut := encodeSeq ss }.setPhase .done) := by
  simp only [encodeStep, hread, written_map_some]

/-- Settles O20: inside the buffers the frame has a result, whose elements `frameMix_spec` gives; at FI = NF the step is the exit
step. -/
theorem framesPhaseSteps : Obligations.FramesPhaseSteps := by
  intro s hs
  rw [blockStep_of_inPhase_frames hs]
  refine ⟨fun hlt h1 h2 hy => ?_, framesStep_of_fi_eq_nf⟩
  obtain ⟨yw, hyw⟩ := frameMix_isSome h1 h2 hy
  obtain ⟨-, -, -, -, helem⟩ := frameMix_spec hyw
  exact ⟨yw, framesStep_of_frameMix hlt hyw, helem⟩

/-- Settles O18: the DECODE phase step writes X1, X2 and PHASE. -/
theorem decodePhaseStep : Obligations.DecodePhaseStep :=
  fun _ hs => blockStep_of_inPhase_decode hs

/-- Settles O19: the RECONCILE phase step writes the results of `reconcile`, the counters, an unwritten YW and PHASE. -/
theorem reconcilePhaseStep : Obligations.ReconcilePhaseStep :=
  fun _ hs => blockStep_of_inPhase_reconcile hs

/-- Settles O21: the step reads the prefix of YW that holds the samples and encodes them. -/
theorem encodePhaseStep : Obligations.EncodePhaseStep := by
  intro s ss hs hlen hyw
  have hread : memRead s.yw 0 (s.nf * s.cfg.fw) = some (ss.map some) := by
    rw [← hlen, ← List.length_map (f := some)]
    refine memRead_zero_of_getElem? fun k hk => ?_
    have hk' : k < ss.length := by simpa using hk
    rw [hyw k (hlen ▸ hk'), List.getElem?_map, List.getElem?_eq_getElem hk', Option.map_some]
  rw [blockStep_of_inPhase_encode hs]
  exact encodeStep_of_written hread

end Sys2Proof.Machine
end

section
/-! PROOF. The power-on state (70_reset_and_hazards.md R222): it is a state a reset leaves, so it has the idle values that
`State.idle` gives every state, and STATUS of a state in IDLE is 0x00. -/

namespace Sys2Proof.Machine

/-- The state at power-on is the state after reset: a reset leaves it as it is (70_reset_and_hazards.md R220, R222). -/
@[simp] theorem State.idle_reset : State.reset.idle = State.reset := rfl

theorem State.idle_idleData (s : State) : s.idle.idleData := by
  simp [State.idleData]

/-- In IDLE neither bit of STATUS is set (10_state.md R27). -/
theorem State.status_of_inPhase_idle {s : State} (h : s.inPhase .idle) : s.status = 0x00#8 := by
  have hbusy : s.busy = false := by simp only [State.busy, State.ofBits_of_inPhase h]
  have hdone : s.isDone = false := by rw [State.isDone, h]; rfl
  rw [State.status, hbusy, hdone]
  rfl

/-- Settles O10: the phase and the idle values are those a reset leaves, and STATUS follows from the phase. -/
theorem powerOnState : Obligations.PowerOnState := by
  unfold Obligations.PowerOnState
  rw [← State.idle_reset]
  have hphase : State.reset.idle.inPhase .idle := State.idle_phase _
  exact ⟨hphase, State.idle_idleData _, State.status_of_inPhase_idle hphase⟩

end Sys2Proof.Machine
end

section
/-! PROOF. The invariant of a call (10_state.md R31, 44_driver.md R162 to R167). What it says in one phase is `State.phaseInv`; the
working buffers from FRAMES on are `State.mixing`, which RECONCILE establishes and one mixed frame keeps, whether the block or the
model mixes it. Each phase step, each event, and then the step keep the invariant. -/

namespace Sys2Proof.Machine

/-- What the invariant of a call says of the working state in phase `p`. -/
def State.phaseInv (s : State) : Phase → Prop
  | .idle => s.idleData
  | .decode => s.yw = [] ∧ s.l = 0 ∧ s.nf = 0 ∧ s.fi = 0 ∧ s.x1 = [] ∧ s.x2 = [] ∧ s.yOut = []
  | .reconcile =>
    s.yw = [] ∧ s.l = 0 ∧ s.nf = 0 ∧ s.fi = 0 ∧ s.x1 = decodeBuf s.aIn ∧ s.x2 = decodeBuf s.bIn ∧ s.yOut = []
  | .frames => s.mixing ∧ s.yOut = []
  | .encode => s.mixing ∧ s.fi = s.nf ∧ s.yOut = []
  | .done => s.mixing ∧ s.fi = s.nf ∧ s.yOut = mixF s.cfg s.aIn s.bIn

/-- In a given phase the invariant of a call is the two length bounds and what it says of that phase. -/
theorem State.callInv_iff {s : State} {p : Phase} (hp : s.inPhase p) :
    s.callInv ↔ s.aIn.length ≤ s.cfg.maxBytes ∧ s.bIn.length ≤ s.cfg.maxBytes ∧ s.phaseInv p := by
  have hq : ∀ q, s.inPhase q ↔ p = q := fun q => by rw [State.inPhase, hp, Phase.bits_inj]
  have hlegal : s.legalPhase := s.legalPhase_iff.2 ⟨p, hp⟩
  refine (and_iff_right hlegal).trans ?_
  simp only [hq]
  cases p with
  | idle => simp [State.phaseInv, State.idleData]
  | decode => simp [State.phaseInv, and_assoc]
  | reconcile => simp [State.phaseInv, and_assoc]
  | frames => simp [State.phaseInv]
  | encode => simp [State.phaseInv]
  | done => simp [State.phaseInv]

theorem State.idle_callInv (s : State) : s.idle.callInv :=
  (State.callInv_iff (s.idle_phase)).2 ⟨Nat.zero_le _, Nat.zero_le _, s.idle_idleData⟩

/-- Settles O49: the reset state is one that a reset leaves. -/
theorem callInvariantAtReset : Obligations.CallInvariantAtReset := by
  unfold Obligations.CallInvariantAtReset
  rw [← State.idle_reset]
  exact State.idle_callInv _

/-! ### The reconciled sequences of a call -/

theorem reconcile_length_fst (x1 x2 : List Sample) : (reconcile x1 x2).1.length = max x1.length x2.length :=
  padTo_length (Nat.le_max_left _ _)

theorem reconcile_length_snd (x1 x2 : List Sample) : (reconcile x1 x2).2.length = max x1.length x2.length :=
  padTo_length (Nat.le_max_right _ _)

theorem callSamples_length_snd (a b : List Byte) : (callSamples a b).2.length = (callSamples a b).1.length := by
  rw [callSamples, reconcile_length_fst, reconcile_length_snd]

/-! ### The working buffers from FRAMES on -/

/-- Frame `i < NF` lies inside the L samples. -/
theorem State.mixing.frame_le {s : State} (h : s.mixing) {i : Nat} (hi : i < s.nf) : i * s.cfg.fw + s.cfg.fw ≤ s.l := by
  obtain ⟨-, -, -, hnf, -⟩ := h
  calc i * s.cfg.fw + s.cfg.fw = (i + 1) * s.cfg.fw := (Nat.succ_mul _ _).symm
    _ ≤ s.nf * s.cfg.fw := Nat.mul_le_mul_right _ hi
    _ ≤ s.l := hnf ▸ Nat.div_mul_le_self _ _

/-- NF frames lie inside the L samples (10_state.md R31(a)). -/
theorem State.mixing.nf_mul_le {s : State} (h : s.mixing) : s.nf * s.cfg.fw ≤ s.l := by
  obtain ⟨-, -, -, hnf, -⟩ := h
  exact hnf ▸ Nat.div_mul_le_self _ _

theorem State.mixing.x2_length {s : State} (h : s.mixing) : s.x2.length = s.l := by
  obtain ⟨hx1, hx2, hl, -⟩ := h
  rw [hl, hx1, hx2, callSamples_length_snd]

/-- NF is the number of complete frames of the call (42_frame_mixer.md R130). -/
theorem State.mixing.nf_eq {s : State} (h : s.mixing) : s.nf = callFrames s.cfg s.aIn s.bIn := by
  obtain ⟨hx1, -, hl, hnf, -⟩ := h
  rw [hnf, hl, hx1, callFrames]

/-- Every frame below NF can be mixed. -/
theorem State.mixing.exists_frameMix {s : State} (h : s.mixing) {i : Nat} (hi : i < s.nf) :
    ∃ yw, frameMix s i = some yw := by
  have hslice := h.frame_le hi
  have hx2 := h.x2_length
  obtain ⟨-, -, hl, -, -, hyw, -⟩ := h
  exact frameMix_isSome (by omega) (by omega) (by omega)

/-- RECONCILE's results, an unwritten YW and FI = 0 are working buffers of the call. -/
theorem State.mixing_reconciled {s : State} (hx1 : s.x1 = decodeBuf s.aIn) (hx2 : s.x2 = decodeBuf s.bIn) (p : BitVec 3) :
    State.mixing { s with
      x1 := (reconcile s.x1 s.x2).1, x2 := (reconcile s.x1 s.x2).2, l := (reconcile s.x1 s.x2).1.length,
      nf := (reconcile s.x1 s.x2).1.length / s.cfg.fw, fi := 0,
      yw := List.replicate (reconcile s.x1 s.x2).1.length none, phase := p } := by
  refine ⟨?_, ?_, rfl, rfl, Nat.zero_le _, List.length_replicate, fun k hk => .inl ?_, fun k hk => ?_, fun k hk _ => ?_⟩
  · simp only [hx1, hx2, callSamples]
  · simp only [hx1, hx2, callSamples]
  · exact List.getElem?_replicate_of_lt hk
  · simp at hk
  · exact List.getElem?_replicate_of_lt hk

/-- One mixed frame keeps the working buffers, and FI may then be any `j` whose frames are the old ones and that one. -/
theorem State.mixing.after_frameMix {s : State} (h : s.mixing) {i j : Nat} {yw : List (Option Sample)} (hi : i < s.nf)
    (hf : frameMix s i = some yw) (hj : j ≤ s.nf)
    (hcover : ∀ k, k < j * s.cfg.fw → k < s.fi * s.cfg.fw ∨ i * s.cfg.fw ≤ k ∧ k < i * s.cfg.fw + s.cfg.fw) :
    State.mixing { s with yw := yw, fi := j } := by
  obtain ⟨-, -, -, hlen, helem⟩ := frameMix_spec hf
  have hslice : i * s.cfg.fw + s.cfg.fw ≤ s.nf * s.cfg.fw := by
    rw [← Nat.succ_mul]
    exact Nat.mul_le_mul_right _ hi
  obtain ⟨hx1, hx2, hl, hnf, -, hyw, hsome, hdone, hrest⟩ := h
  refine ⟨hx1, hx2, hl, hnf, hj, hlen.trans hyw, fun k hk => ?_, fun k hk => ?_, fun k hk hpast => ?_⟩
  · show yw[k]? = _ ∨ yw[k]? = _
    rw [helem k]
    split
    · exact .inr rfl
    · exact hsome k hk
  · show yw[k]? = _
    rw [helem k]
    split
    · rfl
    · exact hdone k ((hcover k hk).resolve_right ‹_›)
  · show yw[k]? = _
    have hpast' : s.nf * s.cfg.fw ≤ k := hpast
    rw [helem k, if_neg (by omega)]
    exact hrest k hk hpast

/-- The block's frame step mixes frame FI and raises FI by one. -/
theorem State.mixing.after_frameStep {s : State} (h : s.mixing) {yw : List (Option Sample)} (hi : s.fi < s.nf)
    (hf : frameMix s s.fi = some yw) : State.mixing { s with yw := yw, fi := s.fi + 1 } := by
  refine h.after_frameMix hi hf hi fun k hk => ?_
  rw [Nat.succ_mul] at hk
  omega

/-- FRAME_MIX issued alone leaves FI. -/
theorem State.mixing.after_setYw {s : State} (h : s.mixing) {i : Nat} {yw : List (Option Sample)} (hi : i < s.nf)
    (hf : frameMix s i = some yw) : (s.setYw yw).mixing := by
  obtain ⟨-, -, -, -, hfi, -⟩ := id h
  exact h.after_frameMix hi hf hfi fun k hk => .inl hk

/-- The NF*FW mixed samples of a call, which ENCODE turns into bytes. -/
def State.mixedSamples (s : State) : List Sample := (List.range (s.nf * s.cfg.fw)).map (mixedAt s.cfg s.x1 s.x2)

theorem State.mixing.encodeSeq_mixedSamples {s : State} (h : s.mixing) :
    encodeSeq s.mixedSamples = mixF s.cfg s.aIn s.bIn := by
  have hnf := h.nf_eq
  obtain ⟨hx1, hx2, -⟩ := h
  rw [State.mixedSamples, hnf, hx1, hx2, mixF]

/-- With every frame mixed, the first NF*FW elements of YW are the mixed samples. -/
theorem State.mixing.take_yw {s : State} (h : s.mixing) (hfi : s.fi = s.nf) :
    s.yw.take (s.nf * s.cfg.fw) = s.mixedSamples.map some := by
  obtain ⟨-, -, -, -, -, -, -, hdone, -⟩ := h
  refine List.ext_getElem? fun k => ?_
  by_cases hk : k < s.nf * s.cfg.fw
  · rw [List.getElem?_take_of_lt hk, hdone k (hfi ▸ hk)]
    simp [State.mixedSamples, hk]
  · rw [List.getElem?_take_eq_none (Nat.le_of_not_lt hk), List.getElem?_eq_none]
    simpa [State.mixedSamples] using hk

/-! ### Every step keeps the invariant -/

theorem blockStep_keeps_callInv {s t : State} (hinv : s.callInv) (h : blockStep s = .next t) : t.callInv := by
  rcases blockStep_next_cases h with ⟨-, rfl⟩ | ⟨hp, rfl⟩ | ⟨hp, rfl⟩ | ⟨hp, hlt, yw, hf, rfl⟩ | ⟨hp, heq, rfl⟩ |
    ⟨hp, -, ss, hss, rfl⟩
  · exact hinv
  · obtain ⟨ha, hb, hyw, hl, hnf, hfi, -, -, hout⟩ := (State.callInv_iff hp).1 hinv
    exact (State.callInv_iff (p := .reconcile) rfl).2 ⟨ha, hb, hyw, hl, hnf, hfi, rfl, rfl, hout⟩
  · obtain ⟨ha, hb, -, -, -, -, hx1, hx2, hout⟩ := (State.callInv_iff hp).1 hinv
    exact (State.callInv_iff (p := .frames) rfl).2 ⟨ha, hb, State.mixing_reconciled hx1 hx2 _, hout⟩
  · obtain ⟨ha, hb, hmix, hout⟩ := (State.callInv_iff hp).1 hinv
    exact (State.callInv_iff (s := { s with yw := yw, fi := s.fi + 1 }) hp).2 ⟨ha, hb, hmix.after_frameStep hlt hf, hout⟩
  · obtain ⟨ha, hb, hmix, hout⟩ := (State.callInv_iff hp).1 hinv
    exact (State.callInv_iff (p := .encode) rfl).2 ⟨ha, hb, hmix, heq, hout⟩
  · obtain ⟨ha, hb, hmix, hfi, -⟩ := (State.callInv_iff hp).1 hinv
    have hss' : ss = s.mixedSamples := by
      rw [hmix.take_yw hfi] at hss
      exact (List.map_injective_iff.2 (Option.some_injective _) hss).symm
    exact (State.callInv_iff (p := .done) rfl).2 ⟨ha, hb, hmix, hfi, hss' ▸ hmix.encodeSeq_mixedSamples⟩

/-- Only from FRAMES on are there frames (10_state.md R25). -/
theorem State.callInv.inPhase_of_lt_nf {s : State} (hinv : s.callInv) {i : Nat} (hi : i < s.nf) :
    s.inPhase .frames ∨ s.inPhase .encode ∨ s.inPhase .done := by
  obtain ⟨p, hp⟩ := s.legalPhase_iff.1 hinv.1
  obtain ⟨-, -, hphase⟩ := (State.callInv_iff hp).1 hinv
  cases p with
  | idle => obtain ⟨-, -, -, -, -, -, hnf, -⟩ := hphase; omega
  | decode => obtain ⟨-, -, hnf, -⟩ := hphase; omega
  | reconcile => obtain ⟨-, -, hnf, -⟩ := hphase; omega
  | frames => exact .inl hp
  | encode => exact .inr (.inl hp)
  | done => exact .inr (.inr hp)

theorem State.callInv.mixing_of_lt_nf {s : State} (hinv : s.callInv) {i : Nat} (hi : i < s.nf) : s.mixing := by
  obtain ⟨-, -, -, -, -, -, -, hmix, -⟩ := id hinv
  exact hmix (hinv.inPhase_of_lt_nf hi)

theorem setYw_keeps_callInv {s : State} (hinv : s.callInv) {i : Nat} {yw : List (Option Sample)} (hi : i < s.nf)
    (hf : frameMix s i = some yw) : (s.setYw yw).callInv := by
  have hmix : (s.setYw yw).mixing := (hinv.mixing_of_lt_nf hi).after_setYw hi hf
  rcases hinv.inPhase_of_lt_nf hi with hp | hp | hp
  · obtain ⟨ha, hb, -, hout⟩ := (State.callInv_iff hp).1 hinv
    exact (State.callInv_iff (s := s.setYw yw) hp).2 ⟨ha, hb, hmix, hout⟩
  · obtain ⟨ha, hb, -, hfi, hout⟩ := (State.callInv_iff hp).1 hinv
    exact (State.callInv_iff (s := s.setYw yw) hp).2 ⟨ha, hb, hmix, hfi, hout⟩
  · obtain ⟨ha, hb, -, hfi, hout⟩ := (State.callInv_iff hp).1 hinv
    exact (State.callInv_iff (s := s.setYw yw) hp).2 ⟨ha, hb, hmix, hfi, hout⟩

/-- An accepted MIX starts a call from idle data (44_driver.md R161). -/
theorem capture_keeps_callInv {s : State} (hinv : s.callInv) (hp : s.inPhase .idle) (ha : s.dinA.length ≤ s.cfg.maxBytes)
    (hb : s.dinB.length ≤ s.cfg.maxBytes) : (s.capture.setPhase .decode).callInv := by
  obtain ⟨-, -, -, -, hx1, hx2, hyw, hl, hnf, hfi, -⟩ := (State.callInv_iff hp).1 hinv
  exact (State.callInv_iff (p := .decode) rfl).2 ⟨ha, hb, hyw, hl, hnf, hfi, hx1, hx2, rfl⟩

/-- The block's state of `s` beside the host's side of `h`. -/
def State.withHostOf (s h : State) : State :=
  { s with
    dinA := h.dinA, dinB := h.dinB, opIn := h.opIn, opOut := h.opOut, script := h.script, replies := h.replies, marks := h.marks }

/-- What an event that is not held does to the block's state: nothing but in an accepted MIX or COLLECT, a turn of the block, a reset and
a frame mixed alone. -/
theorem runEvent_block_cases {e : Event} {s t : State} (h : runEvent e s = .next t) :
    (∃ u, t = s.withHostOf u) ∨
    (e = .command 0x01#8 ∧ s.inPhase .idle ∧ s.dinA.length ≤ s.cfg.maxBytes ∧ s.dinB.length ≤ s.cfg.maxBytes ∧
      t = s.capture.setPhase .decode) ∨
    (e = .command 0x02#8 ∧ s.inPhase .done ∧ t = (s.reply (.collected s.yOut)).idle) ∨
    blockStep s = .next t ∨ ((∃ c, e = .reset c) ∧ t = s.idle) ∨
    ∃ yw, s.opIn.i < s.nf ∧ frameMix s s.opIn.i = some yw ∧ t = s.setYw yw := by
  rcases runEvent_next_cases h with ⟨m, rfl⟩ | hmix | hcollect | ⟨-, -, rfl⟩ | ⟨-, hblock⟩ | hreset | ⟨-, rfl⟩ | ⟨-, rfl⟩ |
    ⟨buf, -, rfl⟩ | ⟨buf, -, rfl⟩ | ⟨ops, -, rfl⟩ | ⟨c, -, ⟨o, rfl⟩ | hframe⟩
  · exact .inl ⟨s.refuse m, rfl⟩
  · exact .inr (.inl hmix)
  · exact .inr (.inr (.inl hcollect))
  · exact .inl ⟨t, rfl⟩
  · exact .inr (.inr (.inr (.inl hblock)))
  · exact .inr (.inr (.inr (.inr (.inl hreset))))
  · exact .inl ⟨s.reply (.status s.status), rfl⟩
  · exact .inl ⟨t, rfl⟩
  · exact .inl ⟨{ s with dinA := buf }, rfl⟩
  · exact .inl ⟨{ s with dinB := buf }, rfl⟩
  · exact .inl ⟨{ s with opIn := ops }, rfl⟩
  · exact .inl ⟨s.setOpOut o, rfl⟩
  · exact .inr (.inr (.inr (.inr (.inr hframe))))

/-- The invariant speaks of the block's state only. -/
theorem withHostOf_keeps_callInv {s : State} (hinv : s.callInv) (h : State) : (s.withHostOf h).callInv := hinv

theorem runEvent_keeps_callInv {e : Event} {s t : State} (hinv : s.callInv) (h : runEvent e s = .next t) : t.callInv := by
  rcases runEvent_block_cases h with ⟨u, rfl⟩ | ⟨-, hp, ha, hb, rfl⟩ | ⟨-, -, rfl⟩ | hblock | ⟨-, rfl⟩ | ⟨yw, hi, hf, rfl⟩
  · exact withHostOf_keeps_callInv hinv u
  · exact capture_keeps_callInv hinv hp ha hb
  · exact State.idle_callInv _
  · exact blockStep_keeps_callInv hinv hblock
  · exact State.idle_callInv _
  · exact setYw_keeps_callInv hinv hi hf

/-- Settles O50: a step is the block's turn or an event, and both keep the invariant. -/
theorem callInvariantKept : Obligations.CallInvariantKept := by
  intro s t hinv h
  obtain ⟨-, ⟨hblock, -⟩ | ⟨e, rest, -, -, hrun⟩⟩ := step_next_cases h
  · exact blockStep_keeps_callInv hinv hblock
  · exact runEvent_keeps_callInv (s := s.setScript rest) hinv hrun

end Sys2Proof.Machine
end

section
/-! PROOF. The codec's round trips (40_codec.md R102, R107), the lengths and the symmetry of the reconciler (41_reconciler.md R121,
R122), the seven internal operations issued alone, and the phase steps as their use in the pipeline. -/

namespace Sys2Proof.Machine

/-! ### The codec's laws -/

theorem dec16_enc16 (s : Sample) : dec16 (enc16 s).1 (enc16 s).2 = s := by
  refine BitVec.eq_of_toNat_eq ?_
  rw [dec16_toNat, enc16_fst_toNat, enc16_snd_toNat]
  omega

theorem enc16_dec16 (lo hi : Byte) : enc16 (dec16 lo hi) = (lo, hi) := by
  have hlo := lo.isLt
  have h1 : (enc16 (dec16 lo hi)).1 = lo := by
    refine BitVec.eq_of_toNat_eq ?_
    rw [enc16_fst_toNat, dec16_toNat]
    omega
  have h2 : (enc16 (dec16 lo hi)).2 = hi := by
    refine BitVec.eq_of_toNat_eq ?_
    rw [enc16_snd_toNat, dec16_toNat]
    omega
  exact Prod.ext h1 h2

/-- Settles O25: both directions compare the unsigned readings. -/
theorem decSixteenEncSixteenInverse : Obligations.DecSixteenEncSixteenInverse :=
  ⟨dec16_enc16, enc16_dec16⟩

theorem decodeBuf_encodeSeq (ss : List Sample) : decodeBuf (encodeSeq ss) = ss := by
  induction ss with
  | nil => rfl
  | cons s ss ih => rw [encodeSeq, decodeBuf, dec16_enc16, ih]

/-- Decoding and encoding keep the complete pairs of bytes. -/
theorem encodeSeq_decodeBuf (b : List Byte) : encodeSeq (decodeBuf b) = b.take (b.length / 2 * 2) := by
  induction b using decodeBuf.induct with
  | case1 lo hi rest ih =>
    have hlen : (lo :: hi :: rest).length / 2 * 2 = rest.length / 2 * 2 + 2 := by simp only [List.length_cons]; omega
    rw [decodeBuf, encodeSeq, enc16_dec16, ih, hlen]
    rfl
  | case2 b => simp [decodeBuf, encodeSeq]
  | case3 => rfl

/-- Settles O28: the complete pairs are the whole buffer for an even length, and all but its last byte for an odd one. -/
theorem codecRoundTrips : Obligations.CodecRoundTrips := by
  refine ⟨fun b hb => ?_, decodeBuf_encodeSeq, fun b hb => ?_⟩
  · rw [encodeSeq_decodeBuf, List.take_of_length_le (by omega)]
  · rw [encodeSeq_decodeBuf, show b.length / 2 * 2 = b.length - 1 by omega]

/-- A dangling byte after complete pairs decodes to nothing (30_encoding.md R64). -/
theorem decodeBuf_append_singleton (a : List Byte) (x : Byte) (ha : a.length % 2 = 0) :
    decodeBuf (a ++ [x]) = decodeBuf a := by
  induction a using decodeBuf.induct with
  | case1 lo hi rest ih =>
    have hrest : rest.length % 2 = 0 := by simp only [List.length_cons] at ha; omega
    simp only [List.cons_append, decodeBuf, ih hrest]
  | case2 b => simp at ha
  | case3 => rfl

/-! ### The reconciler's laws -/

theorem reconcile_swap (x1 x2 : List Sample) : reconcile x2 x1 = ((reconcile x1 x2).2, (reconcile x1 x2).1) := by
  simp only [reconcile, Nat.max_comm x2.length]

theorem callSamples_length_fst (a b : List Byte) : (callSamples a b).1.length = max a.length b.length / 2 := by
  rw [callSamples, reconcile_length_fst, decodeBuf_length, decodeBuf_length]
  omega

/-- Settles O35: `reconcile` pads both inputs to one maximum, and halving commutes with that maximum. -/
theorem reconcileSymmetryAndLength : Obligations.ReconcileSymmetryAndLength :=
  ⟨reconcile_swap, callSamples_length_fst⟩

/-! ### The internal operations issued alone -/

/-- ENCODE issued alone on a written sequence writes its bytes (40_codec.md R106). -/
theorem exec_encode_of_written {s : State} {ss : List Sample} (h : s.opIn.seq = ss.map some) :
    exec .encode s = .next (s.setOpOut { s.opOut with bytes := encodeSeq ss }) := by
  show execEncode s = _
  rw [execEncode, h, written_map_some]

/-- ENCODE issued alone on a sequence with an unwritten element faults (40_codec.md R106). -/
theorem exec_encode_of_unwritten {s : State} (h : none ∈ s.opIn.seq) : exec .encode s = .fault .readUnwritten := by
  show execEncode s = _
  rw [execEncode, (written_eq_none_iff _).2 h]

/-- The ENCODE phase step faults when one of the elements of YW that it reads is unwritten (10_state.md R24). -/
theorem encodeStep_of_unwritten {s : State} (hlen : s.nf * s.cfg.fw ≤ s.yw.length)
    (h : none ∈ s.yw.take (s.nf * s.cfg.fw)) : encodeStep s = .fault .readUnwritten := by
  have hread : memRead s.yw 0 (s.nf * s.cfg.fw) = some (s.yw.take (s.nf * s.cfg.fw)) :=
    (memRead_eq_some_iff _ _ _ _).2 ⟨by omega, by rw [List.drop_zero]⟩
  simp only [encodeStep, hread, (written_eq_none_iff _).2 h]

/-- FRAME_MIX issued alone below NF writes the mixed frame (42_frame_mixer.md R131). -/
theorem exec_frameMix_of_frameMix {s : State} {yw : List (Option Sample)} (hi : s.opIn.i < s.nf)
    (hf : frameMix s s.opIn.i = some yw) : exec .frameMix s = .next (s.setYw yw) := by
  show execFrameMix s = _
  simp only [execFrameMix, hi, if_true, hf]

/-- FRAME_MIX issued alone at or past NF adds a mark only (42_frame_mixer.md R131). -/
theorem exec_frameMix_of_le {s : State} (hi : s.nf ≤ s.opIn.i) : exec .frameMix s = .next (s.refuse .frameOutOfRange) := by
  show execFrameMix s = _
  rw [execFrameMix, if_neg (Nat.not_lt.2 hi)]

/-- Settles O22: the unwritten element stands in the sequence, and in the first NF*FW elements of YW. -/
theorem unwrittenReadFaults : Obligations.UnwrittenReadFaults := by
  refine ⟨fun s => exec_encode_of_unwritten, fun s k hs hlen hk hnone => ?_⟩
  have hmem : none ∈ s.yw.take (s.nf * s.cfg.fw) :=
    List.mem_of_getElem? ((List.getElem?_take_of_lt hk).trans hnone)
  rw [blockStep_of_inPhase_encode hs, encodeStep_of_unwritten hlen hmem]

/-- Settles O29: the five operations are one write of the result port each. -/
theorem pureOperationsComplete : Obligations.PureOperationsComplete :=
  fun _ => ⟨rfl, rfl, rfl, rfl, rfl⟩

/-- Settles O30: a sequence without ⊥ is its samples. -/
theorem encodeCompletes : Obligations.EncodeCompletes :=
  fun _ _ => exec_encode_of_written

/-- Settles O31: inside the buffers the frame has a result, whose elements `frameMix_spec` gives. -/
theorem frameMixWritesItsSlice : Obligations.FrameMixWritesItsSlice := by
  intro s hi h1 h2 hy
  obtain ⟨yw, hyw⟩ := frameMix_isSome h1 h2 hy
  obtain ⟨-, -, -, -, helem⟩ := frameMix_spec hyw
  exact ⟨yw, exec_frameMix_of_frameMix hi hyw, helem⟩

/-- Settles O32: the index is compared with NF before anything else. -/
theorem frameMixOutOfRangeRefused : Obligations.FrameMixOutOfRangeRefused :=
  fun _ => exec_frameMix_of_le

/-- FRAME_MIX issued alone writes one frame of YW or adds a mark. -/
theorem exec_frameMix_next_cases {s t : State} (h : exec .frameMix s = .next t) :
    (∃ yw, frameMix s s.opIn.i = some yw ∧ t = s.setYw yw) ∨ t = s.refuse .frameOutOfRange := by
  by_cases hi : s.opIn.i < s.nf
  · cases hf : frameMix s s.opIn.i with
    | none => simp [exec, execFrameMix, hi, hf] at h
    | some yw =>
      rw [exec_frameMix_of_frameMix hi hf] at h
      cases h
      exact .inl ⟨yw, rfl, rfl⟩
  · rw [exec_frameMix_of_le (Nat.not_lt.1 hi)] at h
    cases h
    exact .inr rfl

/-- ENCODE issued alone answers a next state on a written sequence only. -/
theorem exec_encode_next_cases {s t : State} (h : exec .encode s = .next t) :
    ∃ ss, s.opIn.seq = ss.map some ∧ t = s.setOpOut { s.opOut with bytes := encodeSeq ss } := by
  cases hw : written s.opIn.seq with
  | none => simp [exec, execEncode, hw] at h
  | some ss =>
    have hseq := (written_eq_some_iff _ _).1 hw
    rw [exec_encode_of_written hseq] at h
    cases h
    exact ⟨ss, hseq, rfl⟩

/-- The internal operations other than FRAME_MIX write the result port only. -/
theorem exec_internal_setOpOut {i : Instr} {s t : State} (hi : i.isHostCommand = false) (hne : i ≠ .frameMix)
    (h : exec i s = .next t) : ∃ o, t = s.setOpOut o := by
  cases i with
  | mix => cases hi
  | collect => cases hi
  | frameMix => exact absurd rfl hne
  | encode =>
    obtain ⟨ss, -, rfl⟩ := exec_encode_next_cases h
    exact ⟨_, rfl⟩
  | dec16 => cases h; exact ⟨_, rfl⟩
  | enc16 => cases h; exact ⟨_, rfl⟩
  | decode => cases h; exact ⟨_, rfl⟩
  | reconcile => cases h; exact ⟨_, rfl⟩
  | sampleMix => cases h; exact ⟨_, rfl⟩

/-- Settles O33: FRAME_MIX writes YW or adds a mark, the other six write the result port. -/
theorem internalOperationsFrame : Obligations.InternalOperationsFrame := by
  intro i s t hi h
  by_cases hfm : i = .frameMix
  · subst hfm
    rcases exec_frameMix_next_cases h with ⟨yw, -, rfl⟩ | rfl
    · exact ⟨rfl, fun hne => absurd rfl hne, fun _ => rfl⟩
    · exact ⟨rfl, fun hne => absurd rfl hne, fun _ => rfl⟩
  · obtain ⟨o, rfl⟩ := exec_internal_setOpOut hi hfm h
    exact ⟨rfl, fun _ => ⟨rfl, rfl⟩, fun heq => absurd heq hfm⟩

/-! ### The operations' use in the pipeline -/

/-- The frame step writes what FRAME_MIX issued alone with the index FI writes (42_frame_mixer.md R131, R132). -/
theorem frameStep_yw_eq_frameMix {s t u : State} (hs : s.inPhase .frames) (hlt : s.fi < s.nf) (ht : blockStep s = .next t)
    (hu : exec .frameMix { s with opIn := { s.opIn with i := s.fi } } = .next u) : t.yw = u.yw := by
  cases hf : frameMix s s.fi with
  | none => simp [blockStep_of_inPhase_frames hs, framesStep, hlt, hf] at ht
  | some yw =>
    rw [blockStep_of_inPhase_frames hs, framesStep_of_frameMix hlt hf] at ht
    rw [exec_frameMix_of_frameMix (yw := yw) hlt hf] at hu
    cases ht
    cases hu
    rfl

/-- The ENCODE phase step writes what ENCODE issued alone on the first NF*FW elements of YW writes (40_codec.md R106). -/
theorem encodeStep_yOut_eq_encode {s t u : State} (hs : s.inPhase .encode) (ht : blockStep s = .next t)
    (hu : exec .encode { s with opIn := { s.opIn with seq := s.yw.take (s.nf * s.cfg.fw) } } = .next u) :
    t.yOut = u.opOut.bytes := by
  obtain ⟨ss, hss, rfl⟩ := exec_encode_next_cases hu
  cases hread : memRead s.yw 0 (s.nf * s.cfg.fw) with
  | none => simp [blockStep_of_inPhase_encode hs, encodeStep, hread] at ht
  | some v =>
    obtain ⟨-, rfl⟩ := (memRead_eq_some_iff _ _ _ _).1 hread
    rw [List.drop_zero, show s.yw.take (s.nf * s.cfg.fw) = ss.map some from hss] at hread
    rw [blockStep_of_inPhase_encode hs, encodeStep_of_written hread] at ht
    cases ht
    rfl

/-- Settles O60: the DECODE and RECONCILE steps by their definitions, the frame step and the ENCODE step by what they read. -/
theorem pipelineAppliesTheOperations : Obligations.PipelineAppliesTheOperations := by
  refine ⟨fun s t u v hs ht hu hv => ?_, fun s t u hs ht hu => ?_, fun s t u => frameStep_yw_eq_frameMix,
    fun s t u => encodeStep_yOut_eq_encode⟩
  · rw [blockStep_of_inPhase_decode hs] at ht
    cases ht
    cases hu
    cases hv
    exact ⟨rfl, rfl⟩
  · rw [blockStep_of_inPhase_reconcile hs] at ht
    cases ht
    cases hu
    exact ⟨rfl, rfl⟩

end Sys2Proof.Machine
end

section
/-! PROOF. The step (44_driver.md sections 2 to 6): which event or turn it runs, what MIX, COLLECT, reset and a STATUS read do, what the
block's turn reads and leaves, and how PHASE and the parameters move. -/

namespace Sys2Proof.Machine

/-! ### The command byte -/

theorem decodeByte_of_reserved {c : Byte} (h : c.toNat = 0x00 ∨ (0x03 ≤ c.toNat ∧ c.toNat ≤ 0x7F) ∨ 0x87 ≤ c.toNat) :
    decodeByte c = .error .unknownCommand := by
  cases hd : decodeByte c with
  | error r =>
    cases r with
    | unknownCommand => rfl
    | noByte =>
      unfold decodeByte at hd
      split_ifs at hd
      cases hd
  | ok i =>
    obtain rfl := decodeByte_eq_ok_iff.1 hd
    cases i <;> simp [encodeByte] at h

theorem isHostCommand_iff_msb (i : Instr) : i.isHostCommand = true ↔ (encodeByte i).msb = false := by
  cases i <;> decide

/-- The codes 0x80 to 0x86 are the internal operations' (30_encoding.md R66). -/
theorem decodeByte_of_internal {c : Byte} (h : 0x80 ≤ c.toNat ∧ c.toNat ≤ 0x86) :
    ∃ i, decodeByte c = .ok i ∧ i.isHostCommand = false := by
  have hcode : ∀ b : Byte, 0x80 ≤ b.toNat ∧ b.toNat ≤ 0x86 →
      b = encodeByte .dec16 ∨ b = encodeByte .enc16 ∨ b = encodeByte .decode ∨ b = encodeByte .encode ∨
      b = encodeByte .reconcile ∨ b = encodeByte .frameMix ∨ b = encodeByte .sampleMix := by
    intro b hb
    simp only [encodeByte, ← BitVec.toNat_inj]
    simp only [BitVec.toNat_ofNat]
    omega
  rcases hcode c h with rfl | rfl | rfl | rfl | rfl | rfl | rfl
  · exact ⟨.dec16, rfl, rfl⟩
  · exact ⟨.enc16, rfl, rfl⟩
  · exact ⟨.decode, rfl, rfl⟩
  · exact ⟨.encode, rfl, rfl⟩
  · exact ⟨.reconcile, rfl, rfl⟩
  · exact ⟨.frameMix, rfl, rfl⟩
  · exact ⟨.sampleMix, rfl, rfl⟩

/-- Settles O1: the nine rows by evaluation, the reserved codes since none of them is an instruction's. -/
theorem commandTable : Obligations.CommandTable := by
  refine ⟨rfl, rfl, rfl, rfl, rfl, rfl, rfl, rfl, rfl, fun c => decodeByte_of_reserved, fun c i hd => ?_⟩
  rw [decodeByte_eq_ok_iff.1 hd]
  exact isHostCommand_iff_msb i

/-! ### Which event or turn a step runs -/

theorem State.inPhase.legalPhase {s : State} {p : Phase} (h : s.inPhase p) : s.legalPhase :=
  s.legalPhase_iff.2 ⟨p, h⟩

theorem step_of_script_nil {s : State} (hs : s.legalPhase) (h : s.script = []) : step s = blockStep s := by
  rw [step_of_legal hs, move, h]

theorem step_of_held {s : State} {e : Event} {rest : List Event} (hs : s.legalPhase) (h : s.script = e :: rest)
    (hheld : held e s = true) : step s = blockStep s := by
  rw [step_of_legal hs, move, h]
  simp only [hheld, if_true]

theorem step_of_not_held {s : State} {e : Event} {rest : List Event} (hs : s.legalPhase) (h : s.script = e :: rest)
    (hheld : held e s = false) : step s = runEvent e (s.setScript rest) := by
  rw [step_of_legal hs, move, h]
  simp only [hheld, Bool.false_eq_true, if_false]

theorem held_command {c : Byte} {i : Instr} (s : State) (hd : decodeByte c = .ok i) :
    held (.command c) s = true ↔ i = .collect ∧ s.busy = true := by
  cases i <;> simp [held, hd]

theorem held_command_of_error {c : Byte} {r : DecodeReject} (s : State) (hd : decodeByte c = .error r) :
    held (.command c) s = false := by
  simp [held, hd]

theorem hostCommand_of_decodeByte {c : Byte} {i : Instr} {s : State} (hd : decodeByte c = .ok i) (hi : i.isHostCommand = true) :
    hostCommand c s = exec i s := by
  simp only [hostCommand, hd, hi, if_true]

theorem hostCommand_of_internal {c : Byte} {i : Instr} {s : State} (hd : decodeByte c = .ok i) (hi : i.isHostCommand = false) :
    hostCommand c s = .next (s.refuse .internalOperation) := by
  simp only [hostCommand, hd, hi, Bool.false_eq_true, if_false]

theorem hostCommand_of_error {c : Byte} {r : DecodeReject} {s : State} (hd : decodeByte c = .error r) :
    hostCommand c s = .next (s.refuse .unknownCommand) := by
  simp only [hostCommand, hd]

theorem issueInternal_of_decodeByte {c : Byte} {i : Instr} {s : State} (hd : decodeByte c = .ok i)
    (hi : i.isHostCommand = false) : issueInternal c s = exec i s := by
  simp only [issueInternal, hd, hi, Bool.false_eq_true, if_false]

/-- A host command that is not held runs in the state without its event. -/
theorem step_of_command {s : State} {c : Byte} {rest : List Event} {i : Instr} (hs : s.legalPhase)
    (h : s.script = .command c :: rest) (hd : decodeByte c = .ok i) (hi : i.isHostCommand = true)
    (hheld : ¬(i = .collect ∧ s.busy = true)) : step s = exec i (s.setScript rest) := by
  rw [step_of_not_held hs h (Bool.eq_false_iff.2 fun hh => hheld ((held_command s hd).1 hh))]
  exact hostCommand_of_decodeByte hd hi

/-- An internal operation the model issues runs in the state without its event. -/
theorem step_of_internal {s : State} {c : Byte} {rest : List Event} {i : Instr} (hs : s.legalPhase)
    (h : s.script = .internal c :: rest) (hd : decodeByte c = .ok i) (hi : i.isHostCommand = false) :
    step s = exec i (s.setScript rest) := by
  rw [step_of_not_held hs h rfl]
  exact issueInternal_of_decodeByte hd hi

/-- Settles O3: `step_of_command`. -/
theorem stepRunsHostCommand : Obligations.StepRunsHostCommand :=
  fun _ _ _ _ => step_of_command

/-- Settles O4: `step_of_internal`. -/
theorem stepRunsInternalOperation : Obligations.StepRunsInternalOperation :=
  fun _ _ _ _ => step_of_internal

/-- The table word of an instruction has its code as its lowest byte. -/
theorem decodeTableWord_eq_some {w : Nat} {i : Instr} (h : decodeTableWord 8 w = some i) :
    decodeByte (BitVec.ofNat 8 w) = .ok i := by
  cases hd : decodeByte (BitVec.ofNat 8 w) with
  | error r => simp [decodeTableWord, tableBytes, Sys2Proof.decode, hd] at h
  | ok j => simpa [decodeTableWord, tableBytes, Sys2Proof.decode, hd] using h

/-- Settles O5: bit 7 of the code says who issues it, and removing the event gives the state back. -/
theorem stepRunsFetchedWord : Obligations.StepRunsFetchedWord := by
  intro s w i hs hw hheld
  have hd := decodeTableWord_eq_some hw
  have hmsb : i.isHostCommand = true ↔ (BitVec.ofNat 8 w).msb = false := by
    rw [decodeByte_eq_ok_iff.1 hd]
    exact isHostCommand_iff_msb i
  cases hi : i.isHostCommand with
  | true =>
    have hissue : (s.withFetchWord 8 w).script = .command (BitVec.ofNat 8 w) :: s.script := by
      simp [State.withFetchWord, issueEvent, hmsb.1 hi]
    exact step_of_command (s := s.withFetchWord 8 w) hs hissue hd hi hheld
  | false =>
    have hbit : (BitVec.ofNat 8 w).msb = true := by simpa [hi] using hmsb
    have hissue : (s.withFetchWord 8 w).script = .internal (BitVec.ofNat 8 w) :: s.script := by
      simp [State.withFetchWord, issueEvent, hbit]
    exact step_of_internal (s := s.withFetchWord 8 w) hs hissue hd hi

/-- COLLECT is held while the block is busy (44_driver.md R166). -/
theorem step_of_collect_busy {s : State} {rest : List Event} (hs : s.legalPhase) (h : s.script = .command 0x02#8 :: rest)
    (hbusy : s.busy = true) : step s = blockStep s :=
  step_of_held hs h ((held_command s (decodeByte_encodeByte .collect)).2 ⟨rfl, hbusy⟩)

/-- Settles O6: the script used up, an explicit turn, and the two holds. -/
theorem stepGivesBlockItsTurn : Obligations.StepGivesBlockItsTurn := by
  intro s rest hs
  refine ⟨step_of_script_nil hs, fun h => step_of_not_held hs h rfl, step_of_collect_busy hs, fun h hp => ?_, fun h hp => ?_⟩
  · refine step_of_held hs h ?_
    rw [held, Bool.not_eq_true', Bool.eq_false_iff]
    exact fun hdone => hp (s.isDone_iff.1 hdone)
  · refine step_of_not_held hs h ?_
    rw [held, Bool.not_eq_false', s.isDone_iff]
    exact hp

/-- Settles O7: the byte is decoded before anything else. -/
theorem hostCodesRefused : Obligations.HostCodesRefused := by
  intro s c rest hs h
  refine ⟨fun hc => ?_, fun hc => ?_⟩
  · have hd := decodeByte_of_reserved hc
    rw [step_of_not_held hs h (held_command_of_error s hd)]
    exact hostCommand_of_error hd
  · obtain ⟨i, hd, hi⟩ := decodeByte_of_internal hc
    have hheld : held (.command c) s = false := by
      refine Bool.eq_false_iff.2 fun hh => ?_
      obtain ⟨rfl, -⟩ := (held_command s hd).1 hh
      cases hi
    rw [step_of_not_held hs h hheld]
    exact hostCommand_of_internal hd hi

/-! ### MIX and COLLECT -/

/-- MIX in IDLE within MAX_BYTES captures the data inputs (44_driver.md R161). -/
theorem execMix_of_idle {s : State} (h : s.inPhase .idle) (ha : s.dinA.length ≤ s.cfg.maxBytes)
    (hb : s.dinB.length ≤ s.cfg.maxBytes) : execMix s = .next (s.capture.setPhase .decode) := by
  simp only [execMix, State.ofBits_of_inPhase h]
  rw [if_neg (by omega)]

theorem execMix_of_too_long {s : State} (h : s.inPhase .idle)
    (hlen : s.dinA.length > s.cfg.maxBytes ∨ s.dinB.length > s.cfg.maxBytes) :
    execMix s = .next (s.refuse .inputTooLong) := by
  simp only [execMix, State.ofBits_of_inPhase h]
  rw [if_pos hlen]

theorem execMix_of_not_idle {s : State} {p : Phase} (h : s.inPhase p) (hp : p ≠ .idle) :
    execMix s = .next (s.refuse .callInProgress) := by
  cases p with
  | idle => exact absurd rfl hp
  | decode => simp only [execMix, State.ofBits_of_inPhase h]
  | reconcile => simp only [execMix, State.ofBits_of_inPhase h]
  | frames => simp only [execMix, State.ofBits_of_inPhase h]
  | encode => simp only [execMix, State.ofBits_of_inPhase h]
  | done => simp only [execMix, State.ofBits_of_inPhase h]

theorem execCollect_of_idle {s : State} (h : s.inPhase .idle) : execCollect s = .next (s.refuse .noCallInProgress) := by
  simp only [execCollect, State.ofBits_of_inPhase h]

/-- COLLECT in DONE hands over Y_OUT and leaves the idle values (44_driver.md R166). -/
theorem execCollect_of_done {s : State} (h : s.inPhase .done) :
    execCollect s = .next (s.reply (.collected s.yOut)).idle := by
  simp only [execCollect, State.ofBits_of_inPhase h]

theorem execCollect_of_busy {s : State} (h : s.busy = true) : execCollect s = .next s := by
  rcases s.busy_iff.1 h with hp | hp | hp | hp
  · simp only [execCollect, State.ofBits_of_inPhase hp]
  · simp only [execCollect, State.ofBits_of_inPhase hp]
  · simp only [execCollect, State.ofBits_of_inPhase hp]
  · simp only [execCollect, State.ofBits_of_inPhase hp]

/-- Settles O13: `execMix_of_idle`. -/
theorem mixAccepted : Obligations.MixAccepted :=
  fun _ => execMix_of_idle

/-- Settles O14: the phase is read first, then the lengths. -/
theorem mixRefused : Obligations.MixRefused := by
  intro s hs
  refine ⟨fun hidle => ?_, execMix_of_too_long⟩
  obtain ⟨p, hp⟩ := s.legalPhase_iff.1 hs
  exact execMix_of_not_idle hp fun heq => hidle (heq ▸ hp)

/-- Settles O15: `execCollect_of_done`. -/
theorem collectHandsOver : Obligations.CollectHandsOver :=
  fun _ => execCollect_of_done

/-- Settles O16: the busy phases are those of the statement. -/
theorem collectRefusedOrHeld : Obligations.CollectRefusedOrHeld :=
  fun s => ⟨execCollect_of_idle, fun h => execCollect_of_busy (s.busy_iff.2 h)⟩

/-- In IDLE and DONE the block has no step (44_driver.md section 3). -/
theorem blockStep_of_not_busy {s : State} (hs : s.legalPhase) (h : s.busy = false) : blockStep s = .next s := by
  obtain ⟨p, hp⟩ := s.legalPhase_iff.1 hs
  have hnot := mt s.busy_iff.2 (Bool.eq_false_iff.1 h)
  cases p with
  | idle => simp only [blockStep, State.ofBits_of_inPhase hp]
  | done => simp only [blockStep, State.ofBits_of_inPhase hp]
  | decode => exact absurd (.inl hp) hnot
  | reconcile => exact absurd (.inr (.inl hp)) hnot
  | frames => exact absurd (.inr (.inr (.inl hp))) hnot
  | encode => exact absurd (.inr (.inr (.inr hp))) hnot

/-- Settles O17: a busy block is not in IDLE, where alone MIX is accepted. -/
theorem hostAndBlockNeverCompete : Obligations.HostAndBlockNeverCompete := by
  intro s hs
  refine ⟨fun hbusy => ⟨⟨.callInProgress, ?_⟩, execCollect_of_busy hbusy⟩, blockStep_of_not_busy hs⟩
  rcases s.busy_iff.1 hbusy with hp | hp | hp | hp
  · exact execMix_of_not_idle hp (by decide)
  · exact execMix_of_not_idle hp (by decide)
  · exact execMix_of_not_idle hp (by decide)
  · exact execMix_of_not_idle hp (by decide)

/-! ### Reset and STATUS -/

theorem step_of_reset {s : State} {c : Option Byte} {rest : List Event} (hs : s.legalPhase)
    (h : s.script = .reset c :: rest) : step s = .next (s.setScript rest).idle :=
  step_of_not_held hs h rfl

/-- Settles O9: reset leaves the idle values, and MIX is accepted in IDLE. -/
theorem resetSetsEveryElement : Obligations.ResetSetsEveryElement := by
  intro s c rest hs h
  have hidle : (s.setScript rest).idle.inPhase .idle := rfl
  exact ⟨_, step_of_reset hs h, rfl, rfl, rfl, rfl, rfl, rfl, rfl, rfl, rfl, rfl, State.status_of_inPhase_idle hidle,
    fun ha hb => ⟨_, execMix_of_idle hidle ha hb, rfl⟩⟩

/-! ### Runs -/

theorem run_succ {s t : State} (h : step s = .next t) (k : Nat) : Host.Core.run core (k + 1) s = Host.Core.run core k t := by
  have h' : core.step s = .next t := h
  simp only [Host.Core.run, h']

theorem run_one (s : State) : Host.Core.run core 1 s = step s := by
  have h' : core.step s = step s := rfl
  rw [← h']
  cases h : core.step s with
  | next t => simp only [Host.Core.run, h]
  | fault r => simp only [Host.Core.run, h]
  | refused r => simp only [Host.Core.run, h]

/-- A run is its first steps and then the others. -/
theorem run_add {s t : State} {m : Nat} (h : Host.Core.run core m s = .next t) (n : Nat) :
    Host.Core.run core (m + n) s = Host.Core.run core n t := by
  induction m generalizing s with
  | zero =>
    cases h
    rw [Nat.zero_add]
  | succ m ih =>
    rw [Nat.add_right_comm]
    cases hs : core.step s with
    | next u =>
      simp only [Host.Core.run, hs] at h ⊢
      exact ih h
    | fault r => simp [Host.Core.run, hs] at h
    | refused r => simp [Host.Core.run, hs] at h

/-- In IDLE COLLECT is not held, and it is refused (44_driver.md R166). -/
theorem step_of_collect_idle {s : State} {rest : List Event} (hs : s.inPhase .idle) (h : s.script = .command 0x02#8 :: rest) :
    step s = .next ((s.setScript rest).refuse .noCallInProgress) := by
  have hnot : ¬(Instr.collect = .collect ∧ s.busy = true) := by simp [State.busy, State.ofBits_of_inPhase hs]
  rw [step_of_command hs.legalPhase h (decodeByte_encodeByte .collect) rfl hnot]
  exact execCollect_of_idle (s := s.setScript rest) hs

/-- Settles O11: reset leaves IDLE, where COLLECT is refused. -/
theorem resetAbandonsTheCall : Obligations.ResetAbandonsTheCall := by
  intro s c rest hs h
  have hcollect := step_of_collect_idle (s := (s.setScript (.command 0x02#8 :: rest)).idle) rfl rfl
  refine ⟨(s.setScript rest).idle.refuse .noCallInProgress, ?_, rfl, State.idle_idleData s, rfl, rfl, rfl⟩
  rw [run_succ (step_of_reset hs h), run_one]
  exact hcollect

theorem State.status_bit_zero (s : State) : s.status.getLsbD 0 = s.busy := by
  have hbits : ∀ d b : Bool, (0#6 ++ BitVec.ofBool d ++ BitVec.ofBool b).getLsbD 0 = b := by decide
  exact hbits _ _

theorem State.status_bit_one (s : State) : s.status.getLsbD 1 = s.isDone := by
  have hbits : ∀ d b : Bool, (0#6 ++ BitVec.ofBool d ++ BitVec.ofBool b).getLsbD 1 = d := by decide
  exact hbits _ _

theorem State.status_high_bits (s : State) {j : Nat} (hj : 2 ≤ j) : s.status.getLsbD j = false := by
  rw [State.status, BitVec.getLsbD_append, if_neg (by omega), BitVec.getLsbD_append, if_neg (by omega)]
  exact BitVec.getLsbD_zero

/-- BUSY, DONE and IDLE exclude each other, and one of them holds in a legal phase. -/
theorem State.busy_isDone_iff_idle {s : State} (hs : s.legalPhase) :
    ¬(s.busy = true ∧ s.isDone = true) ∧ (s.busy = false ∧ s.isDone = false ↔ s.inPhase .idle) := by
  obtain ⟨p, hp⟩ := s.legalPhase_iff.1 hs
  have hphase : s.phase = p.bits := hp
  cases p <;> simp [State.busy, State.isDone, State.inPhase, hphase]

/-- Settles O12: the two bits are BUSY and DONE, both views of PHASE. -/
theorem statusLayout : Obligations.StatusLayout := by
  intro s hs
  obtain ⟨hexcl, hidle⟩ := State.busy_isDone_iff_idle hs
  refine ⟨?_, ?_, fun j => s.status_high_bits, ?_, ?_, fun t ht => ?_, fun rest h => ?_⟩
  · rw [s.status_bit_zero]
    exact s.busy_iff
  · rw [s.status_bit_one]
    exact s.isDone_iff
  · rwa [s.status_bit_zero, s.status_bit_one]
  · rwa [s.status_bit_zero, s.status_bit_one]
  · simp only [State.status, State.busy, State.isDone, ht]
  · exact step_of_not_held hs h rfl

/-! ### What every step keeps -/

/-- Two states agree on the parameters and on the host's side exactly when a reset makes them equal. -/
theorem State.idle_eq_iff (s t : State) : t.idle = s.idle ↔ t.cfg = s.cfg ∧ t.dinA = s.dinA ∧ t.dinB = s.dinB ∧
    t.opIn = s.opIn ∧ t.opOut = s.opOut ∧ t.script = s.script ∧ t.replies = s.replies ∧ t.marks = s.marks := by
  simp [State.idle]

/-- The block's turn leaves the parameters and the host's side. -/
theorem blockStep_idle_eq {s t : State} (h : blockStep s = .next t) : t.idle = s.idle := by
  rcases blockStep_next_cases h with ⟨-, rfl⟩ | ⟨-, rfl⟩ | ⟨-, rfl⟩ | ⟨-, -, yw, -, rfl⟩ | ⟨-, -, rfl⟩ | ⟨-, -, ss, -, rfl⟩
  · rfl
  · rfl
  · rfl
  · rfl
  · rfl
  · rfl

theorem blockStep_cfg {s t : State} (h : blockStep s = .next t) : t.cfg = s.cfg :=
  ((State.idle_eq_iff s t).1 (blockStep_idle_eq h)).1

theorem runEvent_cfg {e : Event} {s t : State} (h : runEvent e s = .next t) : t.cfg = s.cfg := by
  rcases runEvent_block_cases h with ⟨u, rfl⟩ | ⟨-, -, -, -, rfl⟩ | ⟨-, -, rfl⟩ | hblock | ⟨-, rfl⟩ | ⟨yw, -, -, rfl⟩
  · rfl
  · rfl
  · rfl
  · exact blockStep_cfg hblock
  · rfl
  · rfl

/-- Settles O46: neither the block's turn nor an event changes a parameter. -/
theorem parametersNeverChange : Obligations.ParametersNeverChange := by
  intro s t h
  obtain ⟨-, ⟨hblock, -⟩ | ⟨e, rest, -, -, hrun⟩⟩ := step_next_cases h
  · exact blockStep_cfg hblock
  · exact runEvent_cfg (s := s.setScript rest) hrun

/-- The moves of PHASE that the block's turn makes (44_driver.md R162 to R165). -/
theorem blockStep_phase {s t : State} (h : blockStep s = .next t) :
    t.phase = s.phase ∨ (s.inPhase .decode ∧ t.inPhase .reconcile) ∨ (s.inPhase .reconcile ∧ t.inPhase .frames) ∨
    (s.inPhase .frames ∧ t.inPhase .encode ∧ s.fi = s.nf) ∨ (s.inPhase .encode ∧ t.inPhase .done) := by
  rcases blockStep_next_cases h with ⟨-, rfl⟩ | ⟨hp, rfl⟩ | ⟨hp, rfl⟩ | ⟨-, -, yw, -, rfl⟩ | ⟨hp, hfi, rfl⟩ | ⟨hp, -, ss, -, rfl⟩
  · exact .inl rfl
  · exact .inr (.inl ⟨hp, rfl⟩)
  · exact .inr (.inr (.inl ⟨hp, rfl⟩))
  · exact .inl rfl
  · exact .inr (.inr (.inr (.inl ⟨hp, rfl, hfi⟩)))
  · exact .inr (.inr (.inr (.inr ⟨hp, rfl⟩)))

/-- Settles O47: the moves of the block's turn, and those of MIX, COLLECT and reset. -/
theorem phaseMovesInOrder : Obligations.PhaseMovesInOrder := by
  intro s t h
  obtain ⟨-, ⟨hblock, -⟩ | ⟨e, rest, hscript, -, hrun⟩⟩ := step_next_cases h
  · have hmove := blockStep_phase hblock
    tauto
  · have hhead : s.script.head? = some e := by rw [hscript, List.head?_cons]
    rw [hhead]
    rcases runEvent_block_cases hrun with ⟨u, rfl⟩ | ⟨rfl, hp, -, -, rfl⟩ | ⟨rfl, hp, rfl⟩ | hblock | ⟨⟨c, rfl⟩, rfl⟩ |
      ⟨yw, -, -, rfl⟩
    · exact .inl rfl
    · exact .inr (.inl ⟨hp, rfl, rfl⟩)
    · exact .inr (.inr (.inr (.inr (.inr (.inr (.inl ⟨hp, rfl, rfl⟩))))))
    · have hmove := blockStep_phase hblock
      simp only [State.inPhase, State.setScript_phase, State.setScript_fi, State.setScript_nf] at hmove ⊢
      tauto
    · exact .inr (.inr (.inr (.inr (.inr (.inr (.inr ⟨rfl, c, rfl⟩))))))
    · exact .inl rfl

/-- A step answers a legal phase: the one it began in, or one the pipeline moves to. -/
theorem step_legalPhase {s t : State} (h : step s = .next t) : t.legalPhase := by
  obtain ⟨hs, -⟩ := step_next_cases h
  rcases phaseMovesInOrder s t h with hsame | ⟨-, ht, -⟩ | ⟨-, ht⟩ | ⟨-, ht⟩ | ⟨-, ht, -⟩ | ⟨-, ht⟩ | ⟨-, ht, -⟩ | ⟨ht, -⟩
  · rwa [State.legalPhase, hsame]
  · exact ht.legalPhase
  · exact ht.legalPhase
  · exact ht.legalPhase
  · exact ht.legalPhase
  · exact ht.legalPhase
  · exact ht.legalPhase
  · exact ht.legalPhase

/-- Settles O8: a reserved PHASE reads as no phase, and the phases a step answers are legal. -/
theorem reservedPhasesRefusedAndNeverReached : Obligations.ReservedPhasesRefusedAndNeverReached := by
  refine ⟨fun s hs => ?_, fun s t h => ?_, by decide, by decide⟩
  · show moveOrRefuse s = _
    simp only [moveOrRefuse, (Phase.ofBits_eq_none_iff _).2 hs]
  · exact not_or.1 fun hres => t.not_legalPhase_iff.2 hres (step_legalPhase h)

/-! ### The block ignores the host -/

/-- The block's turn does the same beside every host. -/
theorem blockStep_withHostOf {s t : State} (h : State) (hst : blockStep s = .next t) :
    blockStep (s.withHostOf h) = .next (t.withHostOf h) := by
  rcases blockStep_next_cases hst with ⟨hp, rfl⟩ | ⟨hp, rfl⟩ | ⟨hp, rfl⟩ | ⟨hp, hlt, yw, hf, rfl⟩ | ⟨hp, hfi, rfl⟩ |
    ⟨hp, hlen, ss, hss, rfl⟩
  · rcases hp with hp | hp
    · simp only [blockStep, State.ofBits_of_inPhase (s := t.withHostOf h) hp]
    · simp only [blockStep, State.ofBits_of_inPhase (s := t.withHostOf h) hp]
  · exact blockStep_of_inPhase_decode hp
  · exact blockStep_of_inPhase_reconcile hp
  · rw [blockStep_of_inPhase_frames (s := s.withHostOf h) hp]
    exact framesStep_of_frameMix (s := s.withHostOf h) hlt hf
  · rw [blockStep_of_inPhase_frames (s := s.withHostOf h) hp]
    exact framesStep_of_fi_eq_nf (s := s.withHostOf h) hfi
  · rw [blockStep_of_inPhase_encode (s := s.withHostOf h) hp]
    refine encodeStep_of_written (s := s.withHostOf h) ((memRead_eq_some_iff _ _ _ _).2 ⟨?_, ?_⟩)
    · rw [Nat.zero_add]
      exact hlen
    · rw [List.drop_zero]
      exact hss.symm

/-- Settles O48: the frame from `blockStep_idle_eq`, the rest from `blockStep_withHostOf`. -/
theorem blockIgnoresTheHost : Obligations.BlockIgnoresTheHost := by
  intro s t a b p o es r m h
  obtain ⟨-, hdinA, hdinB, hopIn, hopOut, hscript, hreplies, hmarks⟩ := (State.idle_eq_iff s t).1 (blockStep_idle_eq h)
  exact ⟨hdinA, hdinB, hopIn, hopOut, hscript, hreplies, hmarks,
    blockStep_withHostOf { s with dinA := a, dinB := b, opIn := p, opOut := o, script := es, replies := r, marks := m } h⟩

end Sys2Proof.Machine
end

section
/-! PROOF. What the invariant of a call gives: a step stops at most on ENCODE of an unwritten sequence, every reached state satisfies
the invariants of 10_state.md R31, and a whole call takes NF + 4 steps of the block (44_driver.md R169). The state after `n` of them is
`State.AtBlockStep`, which asks nothing of the data state that the call finds. -/

namespace Sys2Proof.Machine

/-! ### Where a step answers a next state -/

/-- With every frame mixed the ENCODE phase step answers the result of the call (44_driver.md R165, R167). -/
theorem State.mixing.encodeStep {s : State} (h : s.mixing) (hfi : s.fi = s.nf) :
    encodeStep s = .next ({ s with yOut := mixF s.cfg s.aIn s.bIn }.setPhase .done) := by
  have hle := h.nf_mul_le
  have htake := h.take_yw hfi
  have hbytes := h.encodeSeq_mixedSamples
  obtain ⟨-, -, -, -, -, hyw, -⟩ := h
  rw [← hbytes]
  refine encodeStep_of_written ((memRead_eq_some_iff _ _ _ _).2 ⟨by omega, ?_⟩)
  rw [List.drop_zero, htake]

theorem State.mixing.exists_framesStep {s : State} (h : s.mixing) : ∃ t, framesStep s = .next t := by
  have hle : s.fi ≤ s.nf := by obtain ⟨-, -, -, -, hle, -⟩ := h; exact hle
  rcases Nat.lt_or_eq_of_le hle with hlt | heq
  · obtain ⟨yw, hyw⟩ := h.exists_frameMix hlt
    exact ⟨_, framesStep_of_frameMix hlt hyw⟩
  · exact ⟨_, framesStep_of_fi_eq_nf heq⟩

theorem State.callInv.exists_blockStep {s : State} (hinv : s.callInv) : ∃ t, blockStep s = .next t := by
  obtain ⟨p, hp⟩ := s.legalPhase_iff.1 hinv.1
  obtain ⟨-, -, hphase⟩ := (State.callInv_iff hp).1 hinv
  cases p with
  | idle => exact ⟨s, by simp only [blockStep, State.ofBits_of_inPhase hp]⟩
  | done => exact ⟨s, by simp only [blockStep, State.ofBits_of_inPhase hp]⟩
  | decode => exact ⟨_, blockStep_of_inPhase_decode hp⟩
  | reconcile => exact ⟨_, blockStep_of_inPhase_reconcile hp⟩
  | frames =>
    rw [blockStep_of_inPhase_frames hp]
    exact State.mixing.exists_framesStep hphase.1
  | encode =>
    obtain ⟨hmix, hfi, -⟩ := hphase
    exact ⟨_, (blockStep_of_inPhase_encode hp).trans (State.mixing.encodeStep hmix hfi)⟩

/-- MIX answers a next state in every legal phase: accepted or marked. -/
theorem exists_execMix {s : State} (hs : s.legalPhase) : ∃ t, execMix s = .next t := by
  obtain ⟨p, hp⟩ := s.legalPhase_iff.1 hs
  by_cases hidle : p = .idle
  · subst hidle
    by_cases hlen : s.dinA.length > s.cfg.maxBytes ∨ s.dinB.length > s.cfg.maxBytes
    · exact ⟨_, execMix_of_too_long hp hlen⟩
    · exact ⟨_, execMix_of_idle hp (by omega) (by omega)⟩
  · exact ⟨_, execMix_of_not_idle hp hidle⟩

/-- COLLECT answers a next state in every legal phase: accepted, marked or held. -/
theorem exists_execCollect {s : State} (hs : s.legalPhase) : ∃ t, execCollect s = .next t := by
  obtain ⟨p, hp⟩ := s.legalPhase_iff.1 hs
  cases p with
  | idle => exact ⟨_, execCollect_of_idle hp⟩
  | done => exact ⟨_, execCollect_of_done hp⟩
  | decode => exact ⟨_, execCollect_of_busy (s.busy_iff.2 (.inl hp))⟩
  | reconcile => exact ⟨_, execCollect_of_busy (s.busy_iff.2 (.inr (.inl hp)))⟩
  | frames => exact ⟨_, execCollect_of_busy (s.busy_iff.2 (.inr (.inr (.inl hp))))⟩
  | encode => exact ⟨_, execCollect_of_busy (s.busy_iff.2 (.inr (.inr (.inr hp))))⟩

/-- Under the invariant only ENCODE of an unwritten sequence stops. -/
theorem State.callInv.exists_exec {s : State} (hinv : s.callInv) {i : Instr} (h : ¬(i = .encode ∧ none ∈ s.opIn.seq)) :
    ∃ t, exec i s = .next t := by
  cases i with
  | mix => exact exists_execMix hinv.1
  | collect => exact exists_execCollect hinv.1
  | dec16 => exact ⟨_, rfl⟩
  | enc16 => exact ⟨_, rfl⟩
  | decode => exact ⟨_, rfl⟩
  | reconcile => exact ⟨_, rfl⟩
  | sampleMix => exact ⟨_, rfl⟩
  | encode =>
    cases hw : written s.opIn.seq with
    | none => exact absurd ⟨rfl, (written_eq_none_iff _).1 hw⟩ h
    | some ss => exact ⟨_, exec_encode_of_written ((written_eq_some_iff _ _).1 hw)⟩
  | frameMix =>
    rcases Nat.lt_or_ge s.opIn.i s.nf with hi | hi
    · obtain ⟨yw, hyw⟩ := State.mixing.exists_frameMix (hinv.mixing_of_lt_nf hi) hi
      exact ⟨_, exec_frameMix_of_frameMix hi hyw⟩
    · exact ⟨_, exec_frameMix_of_le hi⟩

theorem State.callInv.exists_hostCommand {s : State} (hinv : s.callInv) (c : Byte) : ∃ t, hostCommand c s = .next t := by
  cases hd : decodeByte c with
  | error r => exact ⟨_, hostCommand_of_error hd⟩
  | ok i =>
    cases hi : i.isHostCommand with
    | false => exact ⟨_, hostCommand_of_internal hd hi⟩
    | true =>
      obtain ⟨t, ht⟩ := hinv.exists_exec (i := i) (by rintro ⟨rfl, -⟩; cases hi)
      exact ⟨t, (hostCommand_of_decodeByte hd hi).trans ht⟩

theorem issueInternal_of_error {c : Byte} {r : DecodeReject} {s : State} (hd : decodeByte c = .error r) :
    issueInternal c s = .next (s.refuse .unknownCommand) := by
  simp only [issueInternal, hd]

theorem issueInternal_of_host {c : Byte} {i : Instr} {s : State} (hd : decodeByte c = .ok i) (hi : i.isHostCommand = true) :
    issueInternal c s = .next (s.refuse .unknownCommand) := by
  simp only [issueInternal, hd, hi, if_true]

theorem State.callInv.exists_issueInternal {s : State} (hinv : s.callInv) {c : Byte}
    (h : ¬(c = encodeByte .encode ∧ none ∈ s.opIn.seq)) : ∃ t, issueInternal c s = .next t := by
  cases hd : decodeByte c with
  | error r => exact ⟨_, issueInternal_of_error hd⟩
  | ok i =>
    cases hi : i.isHostCommand with
    | true => exact ⟨_, issueInternal_of_host hd hi⟩
    | false =>
      obtain rfl := decodeByte_eq_ok_iff.1 hd
      obtain ⟨t, ht⟩ := hinv.exists_exec (i := i) (by rintro ⟨rfl, hmem⟩; exact h ⟨rfl, hmem⟩)
      exact ⟨t, (issueInternal_of_decodeByte hd hi).trans ht⟩

theorem State.callInv.exists_runEvent {s : State} (hinv : s.callInv) {e : Event}
    (h : ¬(e = .internal (encodeByte .encode) ∧ none ∈ s.opIn.seq)) : ∃ t, runEvent e s = .next t := by
  cases e with
  | command c => exact hinv.exists_hostCommand c
  | block => exact hinv.exists_blockStep
  | internal c => exact hinv.exists_issueInternal fun hc => h ⟨by rw [hc.1], hc.2⟩
  | writeA buf => exact ⟨_, rfl⟩
  | writeB buf => exact ⟨_, rfl⟩
  | readStatus => exact ⟨_, rfl⟩
  | wait => exact ⟨_, rfl⟩
  | reset c => exact ⟨_, rfl⟩
  | operands ops => exact ⟨_, rfl⟩

/-- Settles O51: the block's turn always answers, and an event answers unless it is that ENCODE. -/
theorem stepStopsAtMostOnEncodeOfUnwritten : Obligations.StepStopsAtMostOnEncodeOfUnwritten := by
  intro s hinv hnot
  cases hscript : s.script with
  | nil =>
    rw [step_of_script_nil hinv.1 hscript]
    exact hinv.exists_blockStep
  | cons e rest =>
    cases hheld : held e s with
    | true =>
      rw [step_of_held hinv.1 hscript hheld]
      exact hinv.exists_blockStep
    | false =>
      rw [step_of_not_held hinv.1 hscript hheld]
      refine State.callInv.exists_runEvent (s := s.setScript rest) hinv fun he => hnot ⟨?_, he.2⟩
      rw [hscript, List.head?_cons, he.1]

/-! ### The spec's invariants in reached states -/

/-- A clamped value is a 16-bit number, so writing it to a sample keeps it (43_sample_mixer.md R145). -/
theorem sampleMix_toInt (cfg : Config) (s1 s2 : Sample) : (sampleMix cfg s1 s2).toInt = sampleMixInt cfg s1 s2 := by
  obtain ⟨hlo, hhi⟩ : -32768 ≤ sampleMixInt cfg s1 s2 ∧ sampleMixInt cfg s1 s2 ≤ 32767 :=
    clampInt_bounds _ _ _ (by decide)
  rw [sampleMix, BitVec.toInt_ofInt]
  exact Int.bmod_eq_of_le (by omega) (by omega)

/-- Settles O39: the clamp is that of `toInt16`. -/
theorem sampleMixNeverWraps : Obligations.SampleMixNeverWraps := by
  intro cfg s1 s2
  rw [sampleMix_toInt]
  rfl

/-- Every written element of YW is the mixed value of its index. -/
theorem State.mixing.written_yw {s : State} (h : s.mixing) {k : Nat} {v : Sample} (hv : s.yw[k]? = some (some v)) :
    v = mixedAt s.cfg s.x1 s.x2 k := by
  obtain ⟨-, -, -, -, -, hyw, hsome, -⟩ := h
  obtain ⟨hk, -⟩ := List.getElem?_eq_some_iff.1 hv
  rcases hsome k (hyw ▸ hk) with hnone | hmixed
  · simp [hnone] at hv
  · simpa [hv] using hmixed

theorem State.callInv.written_yw {s : State} (hinv : s.callInv) {k : Nat} {v : Sample} (hv : s.yw[k]? = some (some v)) :
    v = mixedAt s.cfg s.x1 s.x2 k := by
  have hempty : s.yw ≠ [] := fun he => by simp [he] at hv
  obtain ⟨p, hp⟩ := s.legalPhase_iff.1 hinv.1
  obtain ⟨-, -, hphase⟩ := (State.callInv_iff hp).1 hinv
  cases p with
  | idle => obtain ⟨-, -, -, -, hyw, -⟩ := hphase; exact absurd hyw hempty
  | decode => exact absurd hphase.1 hempty
  | reconcile => exact absurd hphase.1 hempty
  | frames => exact State.mixing.written_yw hphase.1 hv
  | encode => exact State.mixing.written_yw hphase.1 hv
  | done => exact State.mixing.written_yw hphase.1 hv

theorem mixF_length (cfg : Config) (a b : List Byte) : (mixF cfg a b).length = 2 * (callFrames cfg a b * cfg.fw) := by
  rw [mixF, encodeSeq_length, List.length_map, List.length_range]

/-- The invariant of a call gives (a) to (d) of 10_state.md R31. -/
theorem specInvariants_of_callInv {s : State} (hinv : s.callInv) : s.specInvariants := by
  obtain ⟨-, -, -, -, -, -, -, hmixing, hfi, hout, -⟩ := id hinv
  refine ⟨fun hp => ?_, fun hp => ⟨hfi hp, fun k hk => ?_⟩, fun hp => ?_, fun k v hv => ?_⟩
  · have hmix := hmixing hp
    have hx2 := hmix.x2_length
    have hle := hmix.nf_mul_le
    obtain ⟨-, -, hl, hnf, -, hyw, -⟩ := hmix
    exact ⟨hl.symm, hx2, hyw, hnf, hle⟩
  · obtain ⟨-, -, -, -, -, -, -, hdone, -⟩ := hmixing (.inr hp)
    exact ⟨_, hdone k (by rwa [hfi hp])⟩
  · rw [hout hp, mixF_length, ← State.mixing.nf_eq (hmixing (.inr (.inr hp))), Nat.mul_assoc]
  · rw [hinv.written_yw hv, mixedAt, sampleMix_toInt]
    exact ⟨rfl, clampInt_bounds _ _ _ (by decide)⟩

/-- What every step keeps holds in every state a run reaches. -/
theorem run_keeps {P : State → Prop} (hstep : ∀ s t, P s → step s = .next t → P t) {n : Nat} {s t : State} (hs : P s)
    (h : Host.Core.run core n s = .next t) : P t := by
  induction n generalizing s with
  | zero => cases h; exact hs
  | succ n ih =>
    cases hst : core.step s with
    | next u =>
      simp only [Host.Core.run, hst] at h
      exact ih (hstep s u hs hst) h
    | fault r => simp [Host.Core.run, hst] at h
    | refused r => simp [Host.Core.run, hst] at h

/-- Settles O52: a run keeps the invariant of a call, which gives the rest. -/
theorem specInvariantsOfReachedStates : Obligations.SpecInvariantsOfReachedStates := by
  intro n s t hs h
  have hinv : t.callInv := run_keeps callInvariantKept hs h
  refine ⟨specInvariants_of_callInv hinv, fun hp => ⟨?_, State.status_of_inPhase_idle hp⟩⟩
  obtain ⟨-, -, hidle⟩ := (State.callInv_iff hp).1 hinv
  exact hidle

/-! ### A whole call -/

/-- The state after `n` steps of the block in a call with input buffers `a` and `b` (44_driver.md R169). -/
inductive State.AtBlockStep (a b : List Byte) : Nat → State → Prop
  | decode {s : State} (hp : s.inPhase .decode) (ha : s.aIn = a) (hb : s.bIn = b) (hout : s.yOut = []) :
    AtBlockStep a b 0 s
  | reconcile {s : State} (hp : s.inPhase .reconcile) (ha : s.aIn = a) (hb : s.bIn = b) (hx1 : s.x1 = decodeBuf s.aIn)
    (hx2 : s.x2 = decodeBuf s.bIn) (hout : s.yOut = []) : AtBlockStep a b 1 s
  | frames {s : State} {n : Nat} (hp : s.inPhase .frames) (ha : s.aIn = a) (hb : s.bIn = b) (hmix : s.mixing)
    (hn : n = s.fi + 2) (hout : s.yOut = []) : AtBlockStep a b n s
  | encode {s : State} {n : Nat} (hp : s.inPhase .encode) (ha : s.aIn = a) (hb : s.bIn = b) (hmix : s.mixing)
    (hfi : s.fi = s.nf) (hn : n = s.nf + 3) (hout : s.yOut = []) : AtBlockStep a b n s
  | done {s : State} {n : Nat} (hp : s.inPhase .done) (hnf : s.nf = callFrames s.cfg a b) (hn : s.nf + 4 ≤ n)
    (hout : s.yOut = mixF s.cfg a b) : AtBlockStep a b n s

/-- One more step of the block; from DONE on it stays as it is (log 5). -/
theorem State.AtBlockStep.next {a b : List Byte} {n : Nat} {s : State} (h : s.AtBlockStep a b n) :
    ∃ t, blockStep s = .next t ∧ t.AtBlockStep a b (n + 1) := by
  cases h with
  | decode hp ha hb hout => exact ⟨_, blockStep_of_inPhase_decode hp, .reconcile rfl ha hb rfl rfl hout⟩
  | reconcile hp ha hb hx1 hx2 hout =>
    exact ⟨_, blockStep_of_inPhase_reconcile hp, .frames rfl ha hb (State.mixing_reconciled hx1 hx2 _) rfl hout⟩
  | frames hp ha hb hmix hn' hout =>
    have hle : s.fi ≤ s.nf := by obtain ⟨-, -, -, -, hle, -⟩ := hmix; exact hle
    rcases Nat.lt_or_eq_of_le hle with hlt | heq
    · obtain ⟨yw, hyw⟩ := hmix.exists_frameMix hlt
      exact ⟨_, (blockStep_of_inPhase_frames hp).trans (framesStep_of_frameMix hlt hyw),
        .frames (s := { s with yw := yw, fi := s.fi + 1 }) hp ha hb (hmix.after_frameStep hlt hyw)
          (congrArg (· + 1) hn') hout⟩
    · exact ⟨_, (blockStep_of_inPhase_frames hp).trans (framesStep_of_fi_eq_nf heq),
        .encode (s := s.setPhase .encode) rfl ha hb hmix heq (by rw [hn', heq]; rfl) hout⟩
  | encode hp ha hb hmix hfi hn' hout =>
    refine ⟨_, (blockStep_of_inPhase_encode hp).trans (State.mixing.encodeStep hmix hfi), ?_⟩
    have hnf := hmix.nf_eq
    rw [ha, hb] at hnf ⊢
    exact .done rfl hnf (congrArg (· + 1) hn'.symm).le rfl
  | done hp hnf hn hout =>
    exact ⟨s, by simp only [blockStep, State.ofBits_of_inPhase hp], .done hp hnf (Nat.le_succ_of_le hn) hout⟩

/-- Before block step NF + 4 the block is busy and has no output. -/
theorem State.AtBlockStep.busy {a b : List Byte} {n : Nat} {s : State} (h : s.AtBlockStep a b n)
    (hn : n < callFrames s.cfg a b + 4) : s.busy = true ∧ s.yOut = [] := by
  cases h with
  | decode hp ha hb hout => exact ⟨s.busy_iff.2 (.inl hp), hout⟩
  | reconcile hp ha hb hx1 hx2 hout => exact ⟨s.busy_iff.2 (.inr (.inl hp)), hout⟩
  | frames hp ha hb hmix hn' hout => exact ⟨s.busy_iff.2 (.inr (.inr (.inl hp))), hout⟩
  | encode hp ha hb hmix hfi hn' hout => exact ⟨s.busy_iff.2 (.inr (.inr (.inr hp))), hout⟩
  | done hp hnf hn' hout => omega

/-- From block step NF + 4 on the block is DONE with the result. -/
theorem State.AtBlockStep.inPhase_done {a b : List Byte} {n : Nat} {s : State} (h : s.AtBlockStep a b n)
    (hn : callFrames s.cfg a b + 4 ≤ n) : s.inPhase .done ∧ s.yOut = mixF s.cfg a b := by
  cases h with
  | decode hp ha hb hout => omega
  | reconcile hp ha hb hx1 hx2 hout => omega
  | frames hp ha hb hmix hn' hout =>
    have hnf := hmix.nf_eq
    rw [ha, hb] at hnf
    obtain ⟨-, -, -, -, hle, -⟩ := hmix
    omega
  | encode hp ha hb hmix hfi hn' hout =>
    have hnf := hmix.nf_eq
    rw [ha, hb] at hnf
    omega
  | done hp hnf hn' hout => exact ⟨hp, hout⟩

theorem State.legalPhase_of_busy (s : State) (h : s.busy = true) : s.legalPhase := by
  rcases s.busy_iff.1 h with hp | hp | hp | hp
  · exact State.inPhase.legalPhase hp
  · exact State.inPhase.legalPhase hp
  · exact State.inPhase.legalPhase hp
  · exact State.inPhase.legalPhase hp

theorem State.AtBlockStep.legalPhase {a b : List Byte} {n : Nat} {s : State} (h : s.AtBlockStep a b n) : s.legalPhase := by
  cases h with
  | decode hp => exact State.inPhase.legalPhase hp
  | reconcile hp => exact State.inPhase.legalPhase hp
  | frames hp => exact State.inPhase.legalPhase hp
  | encode hp => exact State.inPhase.legalPhase hp
  | done hp => exact State.inPhase.legalPhase hp

/-- While every step is the block's, a run goes along the steps of the call and leaves the host's side. -/
theorem State.AtBlockStep.run {a b : List Byte} {n : Nat} {s : State} (h : s.AtBlockStep a b n) (k : Nat)
    (hturn : ∀ (j : Nat) (t : State), j < n + k → t.AtBlockStep a b j → t.idle = s.idle → step t = blockStep t) :
    ∃ t : State, Host.Core.run core k s = .next t ∧ t.AtBlockStep a b (n + k) ∧ t.idle = s.idle := by
  induction k generalizing n s with
  | zero => exact ⟨s, rfl, h, rfl⟩
  | succ k ih =>
    obtain ⟨u, hu, hat⟩ := h.next
    have hidle := blockStep_idle_eq hu
    obtain ⟨t, ht, hat', hidle'⟩ := ih hat fun j v hj hv hvs => hturn j v (by omega) hv (hvs.trans hidle)
    refine ⟨t, ?_, ?_, hidle'.trans hidle⟩
    · rw [run_succ ((hturn n s (by omega) h rfl).trans hu), ht]
    · rwa [Nat.add_assoc, Nat.add_comm 1] at hat'

/-- COLLECT in DONE is not held (44_driver.md R166). -/
theorem step_of_collect_done {s : State} {rest : List Event} (hs : s.inPhase .done) (h : s.script = .command 0x02#8 :: rest) :
    step s = .next ((s.setScript rest).reply (.collected s.yOut)).idle := by
  have hnot : ¬(Instr.collect = .collect ∧ s.busy = true) := by simp [State.busy, State.ofBits_of_inPhase hs]
  rw [step_of_command hs.legalPhase h (decodeByte_encodeByte .collect) rfl hnot]
  exact execCollect_of_done (s := s.setScript rest) hs

/-- An accepted MIX begins a call with the buffers on the data inputs (44_driver.md R161). -/
theorem step_of_mix_idle {s : State} {rest : List Event} (hs : s.inPhase .idle) (h : s.script = .command 0x01#8 :: rest)
    (ha : s.dinA.length ≤ s.cfg.maxBytes) (hb : s.dinB.length ≤ s.cfg.maxBytes) :
    step s = .next ((s.setScript rest).capture.setPhase .decode) := by
  rw [step_of_command hs.legalPhase h (decodeByte_encodeByte .mix) rfl (by simp)]
  exact execMix_of_idle (s := s.setScript rest) hs ha hb

/-- From the start of a call with COLLECT waiting: NF + 4 steps of the block, and the one that hands over the result. -/
theorem State.AtBlockStep.run_collect {a b : List Byte} {s : State} {rest : List Event} (h : s.AtBlockStep a b 0)
    (hscript : s.script = .command 0x02#8 :: rest) :
    Host.Core.run core (callFrames s.cfg a b + 5) s =
      .next ((s.idle.setScript rest).reply (.collected (mixF s.cfg a b))) := by
  have hside : ∀ t : State, t.idle = s.idle → t.cfg = s.cfg ∧ t.script = .command 0x02#8 :: rest := fun t ht => by
    obtain ⟨hcfg, -, -, -, -, hscript', -⟩ := (State.idle_eq_iff s t).1 ht
    exact ⟨hcfg, hscript'.trans hscript⟩
  obtain ⟨t, hrun, hat, hidle⟩ := h.run (callFrames s.cfg a b + 4) fun j t hj hat hidle => by
    obtain ⟨hcfg, hscript'⟩ := hside t hidle
    have hbusy := (hat.busy (by rw [hcfg]; omega)).1
    exact step_of_collect_busy (t.legalPhase_of_busy hbusy) hscript' hbusy
  obtain ⟨hcfg, hscript'⟩ := hside t hidle
  obtain ⟨hdone, hout⟩ := hat.inPhase_done (by rw [hcfg]; omega)
  have hcollect : step t = .next ((s.idle.setScript rest).reply (.collected (mixF s.cfg a b))) := by
    rw [step_of_collect_done hdone hscript', hout, hcfg, ← hidle]
    rfl
  exact (run_add hrun 1).trans ((run_one t).trans hcollect)

/-- The state after an accepted MIX is the start of a call with the buffers on the data inputs. -/
theorem State.atBlockStep_zero (s : State) : (s.capture.setPhase .decode).AtBlockStep s.dinA s.dinB 0 :=
  .decode rfl rfl rfl rfl

/-- Settles O53: MIX is accepted, then `State.AtBlockStep.run_collect`. -/
theorem wholeCallReturnsMix : Obligations.WholeCallReturnsMix := by
  intro s rest hs hscript ha hb
  rw [run_succ (step_of_mix_idle hs hscript ha hb)]
  exact (s.setScript (.command 0x02#8 :: rest)).atBlockStep_zero.run_collect rfl

/-- Settles O54: with the script used up every step is the block's. -/
theorem doneAfterExactlyNFPlusFour : Obligations.DoneAfterExactlyNFPlusFour := by
  intro s n hs hscript ha hb
  obtain ⟨t, hrun, hat, hidle⟩ := (s.setScript []).atBlockStep_zero.run n fun j t _ hat hidle => by
    obtain ⟨-, -, -, -, -, hnil, -⟩ := (State.idle_eq_iff _ _).1 hidle
    exact step_of_script_nil hat.legalPhase hnil
  obtain ⟨hcfg, -⟩ := (State.idle_eq_iff _ _).1 hidle
  have hcfg' : t.cfg = s.cfg := hcfg
  rw [Nat.zero_add] at hat
  refine ⟨t, (run_succ (step_of_mix_idle hs hscript ha hb) n).trans hrun, fun hn => ?_, fun hn => ?_⟩
  · exact hat.busy (hcfg' ▸ hn)
  · exact hcfg' ▸ hat.inPhase_done (hcfg' ▸ hn)

theorem step_of_writeA {s : State} {buf : List Byte} {rest : List Event} (hs : s.legalPhase)
    (h : s.script = .writeA buf :: rest) : step s = .next { s with dinA := buf, script := rest } :=
  step_of_not_held hs h rfl

theorem step_of_writeB {s : State} {buf : List Byte} {rest : List Event} (hs : s.legalPhase)
    (h : s.script = .writeB buf :: rest) : step s = .next { s with dinB := buf, script := rest } :=
  step_of_not_held hs h rfl

/-- Settles O55: the two writes change the data inputs only, so the call runs on the buffers that MIX captured. -/
theorem hostWritesAfterMixDoNotReachTheCall : Obligations.HostWritesAfterMixDoNotReachTheCall := by
  intro s a b rest hs hscript ha hb
  have hmix := step_of_mix_idle hs hscript ha hb
  have hwriteA := step_of_writeA (s := (s.setScript (.writeA a :: .writeB b :: .command 0x02#8 :: rest)).capture.setPhase .decode)
    rfl rfl
  have hwriteB := step_of_writeB (s := { s with
    phase := Phase.decode.bits, aIn := s.dinA, bIn := s.dinB, yOut := [], dinA := a,
    script := .writeB b :: .command 0x02#8 :: rest }) rfl rfl
  have hcall := State.AtBlockStep.run_collect (a := s.dinA) (b := s.dinB) (rest := rest) (s := { s with
    phase := Phase.decode.bits, aIn := s.dinA, bIn := s.dinB, yOut := [], dinA := a, dinB := b,
    script := .command 0x02#8 :: rest }) (.decode rfl rfl rfl rfl) rfl
  exact ⟨_, (run_succ hmix _).trans ((run_succ hwriteA _).trans ((run_succ hwriteB _).trans hcall)), rfl, rfl, rfl, rfl, rfl⟩

end Sys2Proof.Machine
end

section
/-! PROOF. The arithmetic of SAMPLE_MIX where it is exact (43_sample_mixer.md R141, R142, R145): a number `m * 2^z` that fits the format
rounds to `Fp.ofDyadic` in every mode, so normalizing, adding and re-scaling lose nothing, and a result depends on the sum of the two
samples only. -/

namespace Sys2Proof.Machine

/-! ### Finite values -/

/-- A magnitude with a sign. -/
def signed (neg : Bool) (v : ℚ) : ℚ := if neg then -v else v

@[simp] theorem signed_zero (neg : Bool) : signed neg 0 = 0 := by simp [signed]

theorem signed_eq_mul (neg : Bool) (v : ℚ) : signed neg v = signed neg 1 * v := by
  cases neg <;> simp [signed]

theorem abs_signed_eq (neg : Bool) (v : ℚ) : |signed neg v| = |v| := by
  cases neg <;> simp [signed]

theorem abs_signed (neg : Bool) {v : ℚ} (hv : 0 ≤ v) : |signed neg v| = v := by
  rw [abs_signed_eq, abs_of_nonneg hv]

/-- An integer is its magnitude with its sign. -/
theorem signed_natAbs (v : ℤ) : signed (decide (v < 0)) v.natAbs = v := by
  by_cases hv : v < 0
  · simp [signed, hv, abs_of_neg]
  · simp [signed, hv, abs_of_nonneg (not_lt.1 hv)]

/-- `x` is a finite value, and that value is `v`. -/
def Fp.Holds (x : Fp) (v : ℚ) : Prop := x.isFinite = true ∧ x.val = v

theorem Fp.val_fin (neg : Bool) (m : ℕ) (e : ℤ) : (Fp.fin neg m e).val = signed neg (m * (2 : ℚ) ^ e) := by
  cases neg <;> simp [Fp.val, signed]

theorem Fp.holds_fin (neg : Bool) (m : ℕ) (e : ℤ) : (Fp.fin neg m e).Holds (signed neg (m * (2 : ℚ) ^ e)) :=
  ⟨rfl, Fp.val_fin neg m e⟩

theorem Fp.holds_zero (neg : Bool) (e : ℤ) : (Fp.fin neg 0 e).Holds 0 := by
  simpa using Fp.holds_fin neg 0 e

theorem Fp.Holds.exists_fin {x : Fp} {v : ℚ} (h : x.Holds v) : ∃ neg m e, x = .fin neg m e := by
  obtain ⟨hfin, -⟩ := h
  cases x with
  | fin neg m e => exact ⟨neg, m, e, rfl⟩
  | inf neg => cases hfin
  | nan => cases hfin

theorem Fp.absNum_div_den (x : Fp) : (x.absNum : ℚ) / x.den = |x.val| := by
  rw [← Fp.num_div_den, abs_div, ← Fp.natAbs_num, Nat.cast_natAbs, Int.cast_abs, Nat.abs_cast]

theorem Fp.den_ne_zero (x : Fp) : x.den ≠ 0 := x.den_pos.ne'

/-- A comparison of finite values is the comparison of the numbers (00_scope.md R9). -/
theorem fpLt_iff {x y : Fp} {v w : ℚ} (hx : x.Holds v) (hy : y.Holds w) : fpLt x y = true ↔ v < w := by
  obtain ⟨n1, m1, e1, rfl⟩ := hx.exists_fin
  obtain ⟨n2, m2, e2, rfl⟩ := hy.exists_fin
  rw [← hx.2, ← hy.2, ← Fp.num_div_den, ← Fp.num_div_den,
    div_lt_div_iff₀ (by exact_mod_cast Fp.den_pos _) (by exact_mod_cast Fp.den_pos _), fpLt, decide_eq_true_iff]
  exact_mod_cast Iff.rfl

/-! ### Numbers that fit the format -/

/-- `m * 2^z` is a nonzero number of the format, with a significand of at most its width and an exponent in its range. -/
def FitsFormat (fmt : FpFormat) (m : ℕ) (z : ℤ) : Prop :=
  0 < m ∧ m < 2 ^ fpPrecision fmt ∧ fpMinExp fmt ≤ z + (fpPrecision fmt - 1) ∧ z + (fpPrecision fmt - 1) ≤ fpMaxExp fmt

/-- The exponents of SAMPLE_MIX are in the range of both formats (43_sample_mixer.md R141). -/
theorem fitsFormat_of_lt (fmt : FpFormat) {m : ℕ} {z : ℤ} (hm : 0 < m) (hm' : m < 2 ^ fpPrecision fmt) (hz : -100 ≤ z)
    (hz' : z ≤ 70) : FitsFormat fmt m z := by
  refine ⟨hm, hm', ?_⟩
  cases fmt with
  | binary32 => norm_num [fpPrecision, fpMinExp, fpMaxExp]; omega
  | binary64 => norm_num [fpPrecision, fpMinExp, fpMaxExp]; omega

/-- The significands of SAMPLE_MIX's exact steps fit both formats. -/
theorem fitsFormat_of_small (fmt : FpFormat) {m : ℕ} {z : ℤ} (hm : 0 < m) (hm' : m ≤ 65536) (hz : -100 ≤ z) (hz' : z ≤ 70) :
    FitsFormat fmt m z := by
  refine fitsFormat_of_lt fmt hm ?_ hz hz'
  cases fmt with
  | binary32 => norm_num [fpPrecision]; omega
  | binary64 => norm_num [fpPrecision]; omega

/-- A rounded significand may be one past the largest of its width; it is then a power of two, and fits one exponent higher. -/
theorem exists_fitsFormat (fmt : FpFormat) {m : ℕ} {z : ℤ} (hm : 0 < m) (hm' : m ≤ 2 ^ fpPrecision fmt) (hz : -100 ≤ z)
    (hz' : z ≤ 15) : ∃ (m' : ℕ) (z' : ℤ), m * (2 : ℚ) ^ z = m' * (2 : ℚ) ^ z' ∧ FitsFormat fmt m' z' := by
  rcases hm'.lt_or_eq with hlt | heq
  · exact ⟨m, z, rfl, fitsFormat_of_lt fmt hm hlt hz (by omega)⟩
  · refine ⟨1, z + fpPrecision fmt, ?_, fitsFormat_of_small fmt one_pos (by norm_num) (by omega) ?_⟩
    · rw [heq, Nat.cast_pow, zpow_add₀ two_ne_zero, zpow_natCast]
      push_cast
      ring
    · cases fmt <;> norm_num [fpPrecision] <;> omega

/-- The value of the format with sign `neg` and magnitude `m * 2^z`, at the exponent rounding gives it. -/
def Fp.ofDyadic (fmt : FpFormat) (neg : Bool) (m : ℕ) (z : ℤ) : Fp :=
  .fin neg (m * 2 ^ (z - quantumExp fmt (m.log2 + z)).toNat) (quantumExp fmt (m.log2 + z))

theorem two_zpow_lt_iff {a b : ℤ} : (2 : ℚ) ^ a < (2 : ℚ) ^ b ↔ a < b :=
  zpow_lt_zpow_iff_right₀ one_lt_two

/-- Only one exponent brackets a ratio. -/
theorem ratioExp_eq {a d : ℕ} (ha : 0 < a) (hd : 0 < d) {e : ℤ} (hlo : (2 : ℚ) ^ e ≤ (a : ℚ) / d)
    (hhi : (a : ℚ) / d < (2 : ℚ) ^ (e + 1)) : ratioExp a d = e := by
  obtain ⟨hlo', hhi'⟩ := ratioExp_spec a d ha hd
  have h1 : ratioExp a d < e + 1 := two_zpow_lt_iff.1 (hlo'.trans_lt hhi)
  have h2 : e < ratioExp a d + 1 := two_zpow_lt_iff.1 (hlo.trans_lt hhi')
  omega

theorem ratioExp_of_dyadic {a d m : ℕ} {z : ℤ} (ha : 0 < a) (hd : 0 < d) (hm : 0 < m)
    (h : (a : ℚ) / d = m * (2 : ℚ) ^ z) : ratioExp a d = m.log2 + z := by
  have hz : (0 : ℚ) < (2 : ℚ) ^ z := by positivity
  have hlo : (2 : ℚ) ^ m.log2 ≤ m := by exact_mod_cast Nat.log2_self_le hm.ne'
  have hhi : (m : ℚ) < 2 ^ (m.log2 + 1) := by exact_mod_cast Nat.lt_log2_self
  refine ratioExp_eq ha hd ?_ ?_
  · rw [h, zpow_add₀ two_ne_zero, zpow_natCast]
    exact mul_le_mul_of_nonneg_right hlo hz.le
  · rw [h, add_right_comm, zpow_add₀ two_ne_zero]
    exact mul_lt_mul_of_pos_right (by exact_mod_cast hhi) hz

theorem FitsFormat.quantumExp_le {fmt : FpFormat} {m : ℕ} {z : ℤ} (h : FitsFormat fmt m z) :
    quantumExp fmt (m.log2 + z) ≤ z := by
  obtain ⟨hm, hlt, hlo, -⟩ := h
  have hlog : m.log2 < fpPrecision fmt := (Nat.log2_lt hm.ne').2 hlt
  rw [quantumExp]
  omega

/-- Scaling the significand to the exponent that rounding uses keeps the number. -/
theorem FitsFormat.scaled {fmt : FpFormat} {m : ℕ} {z : ℤ} (h : FitsFormat fmt m z) :
    ((m * 2 ^ (z - quantumExp fmt (m.log2 + z)).toNat : ℕ) : ℚ) * (2 : ℚ) ^ quantumExp fmt (m.log2 + z) =
      m * (2 : ℚ) ^ z := by
  have hq := h.quantumExp_le
  push_cast
  rw [← zpow_natCast, Int.toNat_of_nonneg (by omega), mul_assoc, ← zpow_add₀ two_ne_zero, sub_add_cancel]

theorem FitsFormat.holds {fmt : FpFormat} {m : ℕ} {z : ℤ} (h : FitsFormat fmt m z) (neg : Bool) :
    (Fp.ofDyadic fmt neg m z).Holds (signed neg (m * (2 : ℚ) ^ z)) := by
  have hfin := Fp.holds_fin neg (m * 2 ^ (z - quantumExp fmt (m.log2 + z)).toNat) (quantumExp fmt (m.log2 + z))
  rwa [h.scaled] at hfin

theorem FitsFormat.not_overflows {fmt : FpFormat} {m : ℕ} {z : ℤ} (h : FitsFormat fmt m z) :
    overflows fmt (m * 2 ^ (z - quantumExp fmt (m.log2 + z)).toNat) (quantumExp fmt (m.log2 + z)) = false := by
  have hq := h.quantumExp_le
  obtain ⟨-, hlt, -, hhi⟩ := h
  simp only [overflows, Bool.or_eq_false_iff, Bool.and_eq_false_iff, decide_eq_false_iff_not]
  refine ⟨by omega, ?_⟩
  by_cases htop : quantumExp fmt (m.log2 + z) = fpMaxExp fmt - (fpPrecision fmt - 1)
  · rw [show z - quantumExp fmt (m.log2 + z) = 0 by omega]
    exact .inr (by simpa using hlt)
  · exact .inl htop

/-- A magnitude that fits the format is kept in every mode (00_scope.md R9). -/
theorem FitsFormat.roundMag {fmt : FpFormat} {m : ℕ} {z : ℤ} (h : FitsFormat fmt m z) (mode : Rounding) (neg : Bool) {a d : ℕ}
    (hd : d ≠ 0) (hval : (a : ℚ) / d = m * (2 : ℚ) ^ z) : roundMag fmt mode neg a d = .ofDyadic fmt neg m z := by
  have hm : (0 : ℚ) < m := by exact_mod_cast h.1
  have ha : a ≠ 0 := by
    rintro rfl
    rw [Nat.cast_zero, zero_div] at hval
    exact absurd hval (by positivity)
  have hexp := ratioExp_of_dyadic (Nat.pos_of_ne_zero ha) (Nat.pos_of_ne_zero hd) h.1 hval
  have hexact := roundMag_exact fmt mode neg a d (m * 2 ^ (z - quantumExp fmt (m.log2 + z)).toNat) ha hd
  rw [hexp] at hexact
  exact hexact (hval.trans h.scaled.symm) h.not_overflows

/-- An integer that fits converts exactly (00_scope.md R9). -/
theorem fpInt_of_fits {cfg : Config} {v : ℤ} (h : FitsFormat cfg.fpFormat v.natAbs 0) :
    fpInt cfg v = .ofDyadic cfg.fpFormat (decide (v < 0)) v.natAbs 0 :=
  h.roundMag _ _ one_ne_zero (by simp)

theorem fpInt_zero (cfg : Config) : fpInt cfg 0 = .fin false 0 0 := by
  simp [fpInt, roundRatio]

/-- The literals 32768.0, 1.0 and -1.0 are exact in both formats and every mode (30_encoding.md R72). -/
theorem fpInt_holds (cfg : Config) {v : ℤ} (hv : v.natAbs ≤ 65536) : (fpInt cfg v).Holds v := by
  by_cases h0 : v = 0
  · subst h0
    rw [fpInt_zero, Int.cast_zero]
    exact Fp.holds_zero _ _
  · have hfit := fitsFormat_of_small cfg.fpFormat (m := v.natAbs) (z := 0) (by omega) hv (by norm_num) (by norm_num)
    have hholds := hfit.holds (decide (v < 0))
    rw [zpow_zero, mul_one, signed_natAbs] at hholds
    rwa [fpInt_of_fits hfit]

/-! ### Products, quotients and sums -/

/-- Multiplication of finite values rounds the product of the magnitudes. -/
theorem fpMul_fin (cfg : Config) (n1 n2 : Bool) (m1 m2 : ℕ) (e1 e2 : ℤ) : ∃ a d : ℕ, d ≠ 0 ∧
    fpMul cfg (.fin n1 m1 e1) (.fin n2 m2 e2) = roundMag cfg.fpFormat cfg.fpRounding (n1 != n2) a d ∧
    (a : ℚ) / d = m1 * (2 : ℚ) ^ e1 * (m2 * (2 : ℚ) ^ e2) := by
  refine ⟨_, _, Nat.mul_ne_zero (Fp.den_ne_zero (.fin n1 m1 e1)) (Fp.den_ne_zero (.fin n2 m2 e2)), rfl, ?_⟩
  rw [Nat.cast_mul, Nat.cast_mul, mul_div_mul_comm, Fp.absNum_div_den, Fp.absNum_div_den, Fp.val_fin, Fp.val_fin,
    abs_signed _ (by positivity), abs_signed _ (by positivity)]

/-- A product that fits is exact. -/
theorem FitsFormat.fpMul {cfg : Config} {m : ℕ} {z : ℤ} (h : FitsFormat cfg.fpFormat m z) {n1 n2 : Bool} {m1 m2 : ℕ} {e1 e2 : ℤ}
    (hval : (m1 * (2 : ℚ) ^ e1) * (m2 * (2 : ℚ) ^ e2) = m * (2 : ℚ) ^ z) :
    fpMul cfg (.fin n1 m1 e1) (.fin n2 m2 e2) = .ofDyadic cfg.fpFormat (n1 != n2) m z := by
  obtain ⟨a, d, hd, hround, hratio⟩ := fpMul_fin cfg n1 n2 m1 m2 e1 e2
  rw [hround, h.roundMag _ _ hd (hratio.trans hval)]

/-- A product with a zero factor is a zero. -/
theorem fpMul_zero (cfg : Config) (n1 n2 : Bool) (e1 : ℤ) (m2 : ℕ) (e2 : ℤ) :
    fpMul cfg (.fin n1 0 e1) (.fin n2 m2 e2) = .fin (n1 != n2) 0 0 := by
  simp [fpMul, Fp.absNum]

/-- A quotient that fits is exact. -/
theorem FitsFormat.fpDiv {cfg : Config} {m : ℕ} {z : ℤ} (h : FitsFormat cfg.fpFormat m z) {n1 n2 : Bool} {m1 m2 : ℕ} {e1 e2 : ℤ}
    (hm2 : m2 ≠ 0) (hval : (m1 * (2 : ℚ) ^ e1) / (m2 * (2 : ℚ) ^ e2) = m * (2 : ℚ) ^ z) :
    fpDiv cfg (.fin n1 m1 e1) (.fin n2 m2 e2) = .ofDyadic cfg.fpFormat (n1 != n2) m z := by
  have habs : (Fp.fin n2 m2 e2).absNum ≠ 0 := Nat.mul_ne_zero hm2 (by positivity)
  refine (if_neg hm2).trans (h.roundMag _ _ (Nat.mul_ne_zero (Fp.den_ne_zero _) habs) ?_)
  rw [← hval, ← abs_signed n1 (v := m1 * (2 : ℚ) ^ e1) (by positivity), ← abs_signed n2 (v := m2 * (2 : ℚ) ^ e2) (by positivity),
    ← Fp.val_fin, ← Fp.val_fin, ← Fp.absNum_div_den, ← Fp.absNum_div_den, Nat.cast_mul, Nat.cast_mul, div_div_div_eq]

/-- A zero divided by a number is a zero. -/
theorem fpDiv_zero (cfg : Config) (n1 n2 : Bool) (e1 : ℤ) {m2 : ℕ} (e2 : ℤ) (hm2 : m2 ≠ 0) :
    fpDiv cfg (.fin n1 0 e1) (.fin n2 m2 e2) = .fin (n1 != n2) 0 0 := by
  simp [fpDiv, Fp.absNum, hm2]

/-- The numerator that addition rounds, over its denominator, is the sum. -/
theorem fpAdd_num_div_den (x y : Fp) :
    ((x.num * y.den + y.num * x.den : ℤ) : ℚ) / ((x.den * y.den : ℕ) : ℚ) = x.val + y.val := by
  have hx : (x.den : ℚ) ≠ 0 := by exact_mod_cast x.den_ne_zero
  have hy : (y.den : ℚ) ≠ 0 := by exact_mod_cast y.den_ne_zero
  rw [← Fp.num_div_den, ← Fp.num_div_den]
  push_cast
  field_simp

/-- A sum of 0 is a zero. -/
theorem fpAdd_of_eq_zero (cfg : Config) {x y : Fp} {v w : ℚ} (hx : x.Holds v) (hy : y.Holds w) (h : v + w = 0) :
    ∃ neg, fpAdd cfg x y = .fin neg 0 0 := by
  have hsum := fpAdd_num_div_den x y
  rw [hx.2, hy.2, h, div_eq_zero_iff, Int.cast_eq_zero, Nat.cast_eq_zero] at hsum
  have hnum := hsum.resolve_right (Nat.mul_ne_zero x.den_ne_zero y.den_ne_zero)
  obtain ⟨n1, m1, e1, rfl⟩ := hx.exists_fin
  obtain ⟨n2, m2, e2, rfl⟩ := hy.exists_fin
  exact ⟨_, if_pos hnum⟩

/-- A sum that fits is exact. -/
theorem FitsFormat.fpAdd {cfg : Config} {m : ℕ} {z : ℤ} (h : FitsFormat cfg.fpFormat m z) {x y : Fp} {v w : ℚ} (hx : x.Holds v)
    (hy : y.Holds w) (hval : |v + w| = m * (2 : ℚ) ^ z) :
    fpAdd cfg x y = .ofDyadic cfg.fpFormat (decide (v + w < 0)) m z := by
  have hsum := fpAdd_num_div_den x y
  rw [hx.2, hy.2] at hsum
  have hden : (0 : ℚ) < ((x.den * y.den : ℕ) : ℚ) := by exact_mod_cast Nat.mul_pos x.den_pos y.den_pos
  have hneg : x.num * y.den + y.num * x.den < 0 ↔ v + w < 0 := by
    rw [← hsum, div_lt_iff₀ hden, zero_mul, Int.cast_lt_zero]
  have hmag : ((x.num * y.den + y.num * x.den).natAbs : ℚ) / ((x.den * y.den : ℕ) : ℚ) = m * (2 : ℚ) ^ z := by
    rw [← hval, ← hsum, abs_div, Nat.abs_cast, Nat.cast_natAbs, Int.cast_abs]
  have hne : x.num * y.den + y.num * x.den ≠ 0 := by
    intro h0
    rw [h0, Int.natAbs_zero, Nat.cast_zero, zero_div] at hmag
    have hm : (0 : ℚ) < m := by exact_mod_cast h.1
    exact absurd hmag (by positivity)
  have hround := h.roundMag cfg.fpRounding (decide (v + w < 0)) (Nat.mul_ne_zero x.den_ne_zero y.den_ne_zero) hmag
  rw [← decide_eq_decide.2 hneg] at hround ⊢
  obtain ⟨n1, m1, e1, rfl⟩ := hx.exists_fin
  obtain ⟨n2, m2, e2, rfl⟩ := hy.exists_fin
  exact (if_neg hne).trans hround

/-! ### Steps 1 and 2 of SAMPLE_MIX -/

theorem natAbs_toInt_le (s : Sample) : s.toInt.natAbs ≤ 32768 := by
  have h1 := BitVec.le_toInt s
  have h2 := BitVec.toInt_lt (x := s)
  norm_num at h1 h2
  omega

/-- The literal 32768.0 (43_sample_mixer.md R141, R145). -/
theorem fpLit_normScale (cfg : Config) : fpLit cfg Config.normScale = .ofDyadic cfg.fpFormat false 32768 0 :=
  fpInt_of_fits (v := 32768) (fitsFormat_of_small _ (by norm_num) (by norm_num) (by norm_num) (by norm_num))

theorem signed_natAbs_div (v : ℤ) : signed (decide (v < 0)) (v.natAbs * (2 : ℚ) ^ (-15 : ℤ)) = v / 32768 := by
  rw [signed_eq_mul, ← mul_assoc, ← signed_eq_mul, signed_natAbs]
  norm_num
  ring

/-- Step 1 is exact (43_sample_mixer.md R141). -/
theorem normalize_holds (cfg : Config) (s : Sample) : (normalize cfg s).Holds (s.toInt / 32768) := by
  have hscale : FitsFormat cfg.fpFormat 32768 0 :=
    fitsFormat_of_small _ (by norm_num) (by norm_num) (by norm_num) (by norm_num)
  have hmag : (32768 * 2 ^ (0 - quantumExp cfg.fpFormat (Nat.log2 32768 + 0)).toNat : ℕ) ≠ 0 := by positivity
  rw [normalize, fpLit_normScale]
  by_cases h0 : s.toInt = 0
  · rw [h0, fpInt_zero, Fp.ofDyadic, Int.cast_zero, zero_div, fpDiv_zero _ _ _ _ _ hmag]
    exact Fp.holds_zero _ _
  · have hle := natAbs_toInt_le s
    have hint := fitsFormat_of_small cfg.fpFormat (m := s.toInt.natAbs) (z := 0) (by omega) (by omega) (by norm_num) (by norm_num)
    have hfit := fitsFormat_of_small cfg.fpFormat (m := s.toInt.natAbs) (z := -15) (by omega) (by omega) (by norm_num)
      (by norm_num)
    have hdiv : fpDiv cfg (.ofDyadic cfg.fpFormat (decide (s.toInt < 0)) s.toInt.natAbs 0)
        (.ofDyadic cfg.fpFormat false 32768 0) = .ofDyadic cfg.fpFormat (decide (s.toInt < 0)) s.toInt.natAbs (-15) := by
      rw [Fp.ofDyadic, Fp.ofDyadic, hfit.fpDiv hmag, Bool.bne_false]
      rw [hint.scaled, hscale.scaled]
      norm_num
      ring
    rw [fpInt_of_fits hint, hdiv, ← signed_natAbs_div]
    exact hfit.holds _

theorem normalize_add_normalize (s1 s2 : Sample) :
    (s1.toInt / 32768 + s2.toInt / 32768 : ℚ) = ((s1.toInt + s2.toInt : ℤ) : ℚ) / 32768 := by
  push_cast
  ring

/-- Step 2 of a nonzero sum is exact, and it is one value for one sum (43_sample_mixer.md R142, R146). -/
theorem mixSum_of_ne_zero (cfg : Config) {s1 s2 : Sample} (h : s1.toInt + s2.toInt ≠ 0) :
    FitsFormat cfg.fpFormat (s1.toInt + s2.toInt).natAbs (-15) ∧
    mixSum cfg s1 s2 =
      .ofDyadic cfg.fpFormat (decide (s1.toInt + s2.toInt < 0)) (s1.toInt + s2.toInt).natAbs (-15) := by
  have h1 := natAbs_toInt_le s1
  have h2 := natAbs_toInt_le s2
  have hfit := fitsFormat_of_small cfg.fpFormat (m := (s1.toInt + s2.toInt).natAbs) (z := -15) (by omega) (by omega)
    (by norm_num) (by norm_num)
  refine ⟨hfit, ?_⟩
  have hadd := hfit.fpAdd (normalize_holds cfg s1) (normalize_holds cfg s2) (by
    rw [normalize_add_normalize, ← signed_natAbs_div, abs_signed _ (by positivity)])
  have hneg : decide (((s1.toInt + s2.toInt : ℤ) : ℚ) / 32768 < 0) = decide (s1.toInt + s2.toInt < 0) := by
    rw [decide_eq_decide, div_lt_iff₀ (by norm_num), zero_mul, Int.cast_lt_zero]
  rw [mixSum, hadd, normalize_add_normalize, hneg]

/-- Step 2 of a sum of 0 is a zero; its sign may differ from one pair to another. -/
theorem mixSum_of_eq_zero (cfg : Config) {s1 s2 : Sample} (h : s1.toInt + s2.toInt = 0) :
    ∃ neg, mixSum cfg s1 s2 = .fin neg 0 0 := by
  refine fpAdd_of_eq_zero cfg (normalize_holds cfg s1) (normalize_holds cfg s2) ?_
  rw [normalize_add_normalize, h, Int.cast_zero, zero_div]

theorem mixSum_holds (cfg : Config) (s1 s2 : Sample) : (mixSum cfg s1 s2).Holds (((s1.toInt + s2.toInt : ℤ) : ℚ) / 32768) := by
  by_cases h0 : s1.toInt + s2.toInt = 0
  · obtain ⟨neg, hzero⟩ := mixSum_of_eq_zero cfg h0
    rw [hzero, h0, Int.cast_zero, zero_div]
    exact Fp.holds_zero _ _
  · obtain ⟨hfit, hsum⟩ := mixSum_of_ne_zero cfg h0
    rw [hsum, ← signed_natAbs_div]
    exact hfit.holds _

/-- The value of a finite number as a cross product of integers. -/
theorem Fp.Holds.num_mul {x : Fp} {v : ℤ} (h : x.Holds ((v : ℚ) / 32768)) : x.num * 32768 = v * x.den := by
  have hden : (x.den : ℚ) ≠ 0 := by exact_mod_cast x.den_ne_zero
  have hval := h.2
  rw [← Fp.num_div_den, div_eq_div_iff hden (by norm_num)] at hval
  exact_mod_cast hval

/-- Settles O37: the two values are `s / 32768` and the sum over 32768. -/
theorem normalizeAndSumAreExact : Obligations.NormalizeAndSumAreExact := by
  intro cfg s1 s2
  have h1 := normalize_holds cfg s1
  have hsum := mixSum_holds cfg s1 s2
  exact ⟨h1.1, hsum.1, h1.num_mul, hsum.num_mul⟩

/-- Settles O36: the conversion reads the format and the mode of the configuration only, so each pattern is one evaluation. -/
theorem literalBitPatterns : Obligations.LiteralBitPatterns := by
  intro cfg hmode
  refine ⟨fun hfmt => ?_, fun hfmt => ?_⟩
  · simp only [fpLit, hmode, hfmt]
    decide
  · simp only [fpLit, hmode, hfmt]
    decide

/-! ### Steps 4 and 5 of SAMPLE_MIX -/

theorem clipLo_holds (cfg : Config) : (fpLit cfg Config.clipLo).Holds (-1) := by
  show (fpInt cfg (-1)).Holds (-1)
  exact_mod_cast fpInt_holds cfg (v := -1) (by norm_num)

theorem clipHi_holds (cfg : Config) : (fpLit cfg Config.clipHi).Holds 1 := by
  show (fpInt cfg 1).Holds 1
  exact_mod_cast fpInt_holds cfg (v := 1) (by norm_num)

/-- Inside [-1.0, 1.0] the clamp keeps the value (43_sample_mixer.md R144). -/
theorem softClip_of_mem (cfg : Config) {x : Fp} {v : ℚ} (hx : x.Holds v) (hlo : -1 ≤ v) (hhi : v ≤ 1) : softClip cfg x = x := by
  rw [softClip, fpClamp, if_neg (mt (fpLt_iff hx (clipLo_holds cfg)).1 hlo.not_gt),
    if_neg (mt (fpLt_iff (clipHi_holds cfg) hx).1 hhi.not_gt)]

theorem softClip_of_lt (cfg : Config) {x : Fp} {v : ℚ} (hx : x.Holds v) (hlo : v < -1) :
    softClip cfg x = fpLit cfg Config.clipLo := by
  rw [softClip, fpClamp, if_pos ((fpLt_iff hx (clipLo_holds cfg)).2 hlo)]

theorem softClip_of_gt (cfg : Config) {x : Fp} {v : ℚ} (hx : x.Holds v) (hhi : 1 < v) :
    softClip cfg x = fpLit cfg Config.clipHi := by
  rw [softClip, fpClamp, if_neg (mt (fpLt_iff hx (clipLo_holds cfg)).1 (by linarith)),
    if_pos ((fpLt_iff (clipHi_holds cfg) hx).2 hhi)]

/-- An infinity clamps to the end of its side (43_sample_mixer.md R144; log 9). -/
theorem softClip_inf (cfg : Config) (neg : Bool) :
    softClip cfg (.inf neg) = fpLit cfg (if neg then Config.clipLo else Config.clipHi) := by
  obtain ⟨n1, m1, e1, hlo⟩ := (clipLo_holds cfg).exists_fin
  obtain ⟨n2, m2, e2, hhi⟩ := (clipHi_holds cfg).exists_fin
  cases neg <;> simp [softClip, fpClamp, fpLt, hlo, hhi]

/-- Re-scaling is exact where the scaled number fits (43_sample_mixer.md R145). -/
theorem rescale_holds (cfg : Config) {neg : Bool} {m m' : ℕ} {e z : ℤ} (hfit : FitsFormat cfg.fpFormat m' z)
    (hval : m * (2 : ℚ) ^ e * 32768 = m' * (2 : ℚ) ^ z) :
    (rescale cfg (.fin neg m e)).Holds (signed neg (m * (2 : ℚ) ^ e * 32768)) := by
  have hscale : FitsFormat cfg.fpFormat 32768 0 :=
    fitsFormat_of_small _ (by norm_num) (by norm_num) (by norm_num) (by norm_num)
  have hmul : rescale cfg (.fin neg m e) = .ofDyadic cfg.fpFormat neg m' z := by
    rw [rescale, show fpLit cfg Config.rescale = _ from fpLit_normScale cfg, Fp.ofDyadic, hfit.fpMul, Bool.bne_false]
    rw [hscale.scaled, ← hval]
    norm_num
  rw [hmul, hval]
  exact hfit.holds neg

/-- Truncation drops the fraction of the magnitude (00_scope.md R9). -/
theorem fpTrunc_of_holds (cfg : Config) {x : Fp} {neg : Bool} {r : ℚ} {n : ℕ} (hx : x.Holds (signed neg r)) (hlo : n ≤ r)
    (hhi : r < n + 1) : fpTrunc cfg x = if neg then -(n : ℤ) else n := by
  have hden : (0 : ℚ) < x.den := by exact_mod_cast x.den_pos
  have hnat : x.num.natAbs / x.den = n := by
    have hr : (x.num.natAbs : ℚ) / x.den = r := by
      rw [Fp.natAbs_num, Fp.absNum_div_den, hx.2, abs_signed _ ((Nat.cast_nonneg n).trans hlo)]
    rw [← hr, le_div_iff₀ hden] at hlo
    rw [← hr, div_lt_iff₀ hden] at hhi
    exact Nat.div_eq_of_lt_le (by exact_mod_cast hlo) (by exact_mod_cast hhi)
  have hsign : (x.num : ℚ) = signed neg r * x.den := by rw [← hx.2, ← Fp.num_div_den, div_mul_cancel₀ _ hden.ne']
  have hr0 : 0 ≤ r * x.den := mul_nonneg ((Nat.cast_nonneg n).trans hlo) hden.le
  have htrunc : fpTrunc cfg x = x.num.tdiv x.den := by
    obtain ⟨n1, m1, e1, rfl⟩ := hx.exists_fin
    rfl
  have hmag : (x.num.natAbs : ℤ).tdiv x.den = n := by rw [← Int.ofNat_tdiv, hnat]
  rw [htrunc]
  cases neg with
  | false =>
    have hnonneg : (0 : ℚ) ≤ x.num := by rw [hsign]; simpa [signed] using hr0
    rw [← Int.natAbs_of_nonneg (Int.cast_nonneg_iff.1 hnonneg), hmag]
    rfl
  | true =>
    have hnonpos : (x.num : ℚ) ≤ 0 := by rw [hsign]; simpa [signed] using hr0
    rw [← neg_neg x.num, ← Int.ofNat_natAbs_of_nonpos (Int.cast_nonpos.1 hnonpos), Int.neg_tdiv, hmag]
    rfl

end Sys2Proof.Machine
end

section
/-! PROOF. SAMPLE_MIX from its sum: what a sum of 0 gives in every configuration, that nothing else of the two samples matters
(43_sample_mixer.md R146), what an infinite attenuation does (log 25), and what the last three steps make of a finite attenuated sum. -/

namespace Sys2Proof.Machine

theorem toInt16_eq_clamp_of_trunc {cfg : Config} {x : Fp} {v : ℤ} (h : fpTrunc cfg x = v) :
    toInt16 cfg x = clampInt v (-32768) 32767 := by
  rw [toInt16, h]

theorem rescale_zero (cfg : Config) (neg : Bool) (e : ℤ) : rescale cfg (.fin neg 0 e) = .fin neg 0 0 := by
  rw [rescale, show fpLit cfg Config.rescale = _ from fpLit_normScale cfg, Fp.ofDyadic, fpMul_zero, Bool.bne_false]

/-- Steps 4 and 5 take a zero of either sign to 0. -/
theorem toInt16_of_zero (cfg : Config) (neg : Bool) : toInt16 cfg (rescale cfg (softClip cfg (.fin neg 0 0))) = 0 := by
  rw [softClip_of_mem cfg (Fp.holds_zero neg 0) (by norm_num) (by norm_num), rescale_zero]
  cases neg <;> rfl

/-- Steps 4 and 5 take a NaN to the machine's free value, clamped (log 25). -/
theorem toInt16_of_nan (cfg : Config) : toInt16 cfg (rescale cfg (softClip cfg .nan)) =
    clampInt (Config.truncOfNoInteger cfg.fpFormat cfg.fpRounding cfg.atten) (-32768) 32767 := by
  rw [softClip, fpClamp_nan, rescale, fpMul]
  rfl

/-- A sum of 0 gives 0 where the attenuation is finite, and elsewhere the machine's free value, clamped. -/
theorem sampleMixInt_of_sum_zero (cfg : Config) {s1 s2 : Sample} (h : s1.toInt + s2.toInt = 0) :
    sampleMixInt cfg s1 s2 = if (fpLit cfg cfg.atten).isFinite then 0
      else clampInt (Config.truncOfNoInteger cfg.fpFormat cfg.fpRounding cfg.atten) (-32768) 32767 := by
  obtain ⟨neg, hzero⟩ := mixSum_of_eq_zero cfg h
  rw [sampleMixInt, hzero, attenuate]
  cases fpLit cfg cfg.atten with
  | fin n m e =>
    rw [fpMul_zero]
    exact toInt16_of_zero cfg _
  | inf n => exact toInt16_of_nan cfg
  | nan => exact toInt16_of_nan cfg

/-- Settles O38: a nonzero sum fixes the value of step 2, and a sum of 0 the result. -/
theorem onlyTheSumMatters : Obligations.OnlyTheSumMatters := by
  intro cfg s1 s2 t1 t2 h
  by_cases h0 : s1.toInt + s2.toInt = 0
  · rw [sampleMix, sampleMix, sampleMixInt_of_sum_zero cfg h0, sampleMixInt_of_sum_zero cfg (h ▸ h0)]
  · have hsum : mixSum cfg s1 s2 = mixSum cfg t1 t2 := by
      rw [(mixSum_of_ne_zero cfg h0).2, (mixSum_of_ne_zero cfg (h ▸ h0)).2, h]
    rw [sampleMix, sampleMix, sampleMixInt, sampleMixInt, hsum]

theorem sampleMix_comm (cfg : Config) (s1 s2 : Sample) : sampleMix cfg s1 s2 = sampleMix cfg s2 s1 :=
  onlyTheSumMatters cfg s1 s2 s2 s1 (Int.add_comm _ _)

/-! ### An infinite attenuation -/

/-- A value of 1.0 or -1.0 re-scales to the end of the range (43_sample_mixer.md R145, decision D9). -/
theorem toInt16_of_clip (cfg : Config) (neg : Bool) :
    toInt16 cfg (rescale cfg (fpLit cfg (if neg then Config.clipLo else Config.clipHi))) = if neg then -32768 else 32767 := by
  have hfit : ∀ z : ℤ, -100 ≤ z → z ≤ 70 → FitsFormat cfg.fpFormat 1 z := fun z =>
    fitsFormat_of_small _ (by norm_num) (by norm_num)
  have hone : FitsFormat cfg.fpFormat 1 0 := hfit 0 (by norm_num) (by norm_num)
  have hlit : fpLit cfg (if neg then Config.clipLo else Config.clipHi) = .ofDyadic cfg.fpFormat neg 1 0 := by
    cases neg with
    | false => exact fpInt_of_fits (v := 1) hone
    | true => exact fpInt_of_fits (v := -1) hone
  have hholds := rescale_holds cfg (neg := neg) (hfit 15 (by norm_num) (by norm_num)) (by rw [hone.scaled]; norm_num)
  rw [hone.scaled] at hholds
  rw [hlit, Fp.ofDyadic, toInt16_eq_clamp_of_trunc (fpTrunc_of_holds cfg (n := 32768) hholds (by norm_num) (by norm_num))]
  cases neg <;> rfl

theorem toInt16_of_inf (cfg : Config) (neg : Bool) :
    toInt16 cfg (rescale cfg (softClip cfg (.inf neg))) = if neg then -32768 else 32767 := by
  rw [softClip_inf, toInt16_of_clip]

/-- A nonzero finite value times an infinity is an infinity (log 9). -/
theorem attenuate_of_inf (cfg : Config) {s1 s2 : Sample} {neg : Bool} (hatten : fpLit cfg cfg.atten = .inf neg)
    (h : s1.toInt + s2.toInt ≠ 0) :
    attenuate cfg (mixSum cfg s1 s2) = .inf (decide (s1.toInt + s2.toInt < 0) != neg) := by
  obtain ⟨⟨hm, -⟩, hsum⟩ := mixSum_of_ne_zero cfg h
  rw [attenuate, hatten, hsum, Fp.ofDyadic, fpMul, if_neg (Nat.mul_ne_zero hm.ne' (by positivity))]

/-- Settles O41: a zero times an infinity is NaN, and a nonzero sum gives an infinity with the product of the signs. -/
theorem infiniteAttenuation : Obligations.InfiniteAttenuation := by
  intro cfg s1 s2 neg hatten
  have hinf : ∀ n, attenuate cfg (mixSum cfg s1 s2) = .inf n → (sampleMix cfg s1 s2).toInt = if n then -32768 else 32767 := by
    intro n hn
    rw [sampleMix_toInt, sampleMixInt, hn, toInt16_of_inf]
  refine ⟨fun h => ⟨?_, ?_⟩, fun h => ?_, fun h => ?_⟩
  · obtain ⟨n, hzero⟩ := mixSum_of_eq_zero cfg h
    rw [attenuate, hzero, hatten]
    rfl
  · rw [sampleMix_toInt, sampleMixInt_of_sum_zero cfg h, hatten]
    rfl
  · have hatt := attenuate_of_inf cfg hatten h.ne'
    rw [decide_eq_false h.not_gt, Bool.false_bne] at hatt
    exact ⟨hatt, hinf _ hatt⟩
  · have hatt := attenuate_of_inf cfg hatten h.ne
    rw [decide_eq_true h, Bool.true_bne] at hatt
    refine ⟨hatt, (hinf _ hatt).trans ?_⟩
    cases neg <;> rfl

/-! ### A finite attenuated sum -/

/-- Beyond 1.0 in magnitude step 4 takes the end of the range of the value's side. -/
theorem toInt16_of_one_lt (cfg : Config) {x : Fp} {neg : Bool} {v : ℚ} (hx : x.Holds (signed neg v)) (hv : 1 < v) :
    toInt16 cfg (rescale cfg (softClip cfg x)) = if neg then -32768 else 32767 := by
  rw [← toInt16_of_clip]
  cases neg with
  | false => rw [softClip_of_gt cfg hx hv]; rfl
  | true => rw [softClip_of_lt cfg hx (neg_lt_neg hv)]; rfl

/-- What steps 4 and 5 make of a rounded value of the format: its magnitude times 32768, truncated, with its sign, and clamped. -/
theorem toInt16_of_fin (cfg : Config) {neg : Bool} {m n : ℕ} {q : ℤ} (hm : 0 < m) (hm' : m ≤ 2 ^ fpPrecision cfg.fpFormat)
    (hq : -100 ≤ q) (hq' : q ≤ 0) (hlo : (n : ℚ) ≤ m * (2 : ℚ) ^ q * 32768) (hhi : m * (2 : ℚ) ^ q * 32768 < n + 1) :
    toInt16 cfg (rescale cfg (softClip cfg (.fin neg m q))) = clampInt (if neg then -(n : ℤ) else n) (-32768) 32767 := by
  have hholds := Fp.holds_fin neg m q
  rcases le_or_gt (m * (2 : ℚ) ^ q) 1 with hone | hone
  · obtain ⟨m', z, hval, hfit⟩ := exists_fitsFormat cfg.fpFormat (z := q + 15) hm hm' (by omega) (by omega)
    have hscaled : m * (2 : ℚ) ^ q * 32768 = m' * (2 : ℚ) ^ z := by
      rw [← hval, zpow_add₀ two_ne_zero, mul_assoc]
      norm_num
    obtain ⟨hge, hle⟩ := abs_le.1 ((abs_signed neg (v := m * (2 : ℚ) ^ q) (by positivity)).trans_le hone)
    rw [softClip_of_mem cfg hholds hge hle]
    exact toInt16_eq_clamp_of_trunc (fpTrunc_of_holds cfg (rescale_holds cfg hfit hscaled) hlo hhi)
  · have hn : 32768 ≤ n := by
      have : (32768 : ℚ) < n + 1 := by linarith
      exact Nat.lt_succ_iff.1 (by exact_mod_cast this)
    rw [toInt16_of_one_lt cfg hholds hone, clampInt]
    cases neg with
    | false => simp only [Bool.false_eq_true, if_false]; split_ifs <;> omega
    | true => simp only [if_true]; split_ifs <;> omega

end Sys2Proof.Machine
end

section
/-! PROOF. The closed integer form of SAMPLE_MIX with ATTEN = 0.9 (43_sample_mixer.md R143, R147). Let `a` be the magnitude of the sum.
The attenuated magnitude, times 32768, is `9 * a / 10` up to two small errors: that of `fp(0.9)` (`NineTenths`) and that of rounding the
product (`Nearby`). Together they stay below a tenth, so they reach another integer only where `9 * a / 10` is one itself, which
is where 10 divides `a`; there the product is exact or falls short, as the mode says (`IsAttenuated`). -/

namespace Sys2Proof.Machine

/-! ### Rounding to a neighbour -/

/-- What the significand `m` that a mode chooses for the magnitude `y` of a value of sign `neg` satisfies. -/
structure Nearby (mode : Rounding) (neg : Bool) (m : ℕ) (y : ℚ) : Prop where
  lt_one : |(m : ℚ) - y| < 1
  le_half : mode = .nearestEven → |(m : ℚ) - y| ≤ 1 / 2
  le : mode = .towardZero ∨ mode = .towardNegative ∧ neg = false → (m : ℚ) ≤ y
  ge : mode = .towardNegative ∧ neg = true → y ≤ m

/-- `roundsUp` chooses between the two neighbours of `t + r/d`. -/
theorem nearby_of_roundsUp (mode : Rounding) (neg : Bool) (t : ℕ) {r d : ℕ} (hr : r < d) :
    Nearby mode neg (if roundsUp mode neg t r d then t + 1 else t) (t + (r : ℚ) / d) := by
  have hd : (0 : ℚ) < d := by exact_mod_cast Nat.zero_lt_of_lt hr
  have hf0 : (0 : ℚ) ≤ (r : ℚ) / d := by positivity
  have hf1 : (r : ℚ) / d < 1 := (div_lt_one hd).2 (by exact_mod_cast hr)
  cases hup : roundsUp mode neg t r d with
  | false =>
    have hdiff : (t : ℚ) - (t + (r : ℚ) / d) = -((r : ℚ) / d) := by ring
    simp only [Bool.false_eq_true, if_false]
    refine ⟨?_, fun hmode => ?_, fun _ => by linarith, fun hmode => ?_⟩
    · rw [hdiff, abs_neg, abs_of_nonneg hf0]
      exact hf1
    · have hle : 2 * r ≤ d := by
        subst hmode
        simp [roundsUp] at hup
        omega
      rw [hdiff, abs_neg, abs_of_nonneg hf0, div_le_div_iff₀ hd two_pos, mul_comm, one_mul]
      exact_mod_cast hle
    · obtain ⟨rfl, rfl⟩ := hmode
      have hzero : r = 0 := by simpa [roundsUp] using hup
      simp [hzero]
  | true =>
    have hpos : 0 < r := by
      rcases Nat.eq_zero_or_pos r with rfl | hpos
      · rw [roundsUp_zero _ _ _ _ hr] at hup
        cases hup
      · exact hpos
    have hf : 0 < (r : ℚ) / d := div_pos (by exact_mod_cast hpos) hd
    have hdiff : ((t + 1 : ℕ) : ℚ) - (t + (r : ℚ) / d) = 1 - (r : ℚ) / d := by push_cast; ring
    simp only [if_true]
    refine ⟨?_, fun hmode => ?_, fun hmode => ?_, fun _ => by push_cast; linarith⟩
    · rw [hdiff, abs_of_nonneg (by linarith)]
      linarith
    · have hle : d ≤ 2 * r := by
        subst hmode
        simp [roundsUp] at hup
        omega
      have hhalf : 1 / 2 ≤ (r : ℚ) / d := by
        rw [div_le_div_iff₀ two_pos hd, one_mul, mul_comm]
        exact_mod_cast hle
      rw [hdiff, abs_of_nonneg (by linarith)]
      linarith
    · rcases hmode with rfl | ⟨rfl, rfl⟩
      · simp [roundsUp] at hup
      · simp [roundsUp] at hup

/-- Rounding below the range's end answers a neighbour of the exact significand (00_scope.md R9). -/
theorem roundMag_nearby (fmt : FpFormat) (mode : Rounding) (neg : Bool) {a d : ℕ} (ha : a ≠ 0) (hd : d ≠ 0)
    (hq : quantumExp fmt (ratioExp a d) < fpMaxExp fmt - (fpPrecision fmt - 1)) :
    ∃ m : ℕ, roundMag fmt mode neg a d = .fin neg m (quantumExp fmt (ratioExp a d)) ∧
      Nearby mode neg m ((a : ℚ) / d / (2 : ℚ) ^ quantumExp fmt (ratioExp a d)) := by
  generalize hqe : quantumExp fmt (ratioExp a d) = q at hq ⊢
  have hbot : 0 < d * 2 ^ q.toNat := Nat.mul_pos (Nat.pos_of_ne_zero hd) (by positivity)
  have hy : ((a * 2 ^ (-q).toNat / (d * 2 ^ q.toNat) : ℕ) : ℚ) +
      ((a * 2 ^ (-q).toNat % (d * 2 ^ q.toNat) : ℕ) : ℚ) / ((d * 2 ^ q.toNat : ℕ) : ℚ) = (a : ℚ) / d / (2 : ℚ) ^ q := by
    have hbot' : ((d * 2 ^ q.toNat : ℕ) : ℚ) ≠ 0 := by exact_mod_cast hbot.ne'
    have hd' : (d : ℚ) ≠ 0 := by exact_mod_cast hd
    have hdivmod : ((d * 2 ^ q.toNat : ℕ) : ℚ) * ((a * 2 ^ (-q).toNat / (d * 2 ^ q.toNat) : ℕ) : ℚ) +
        ((a * 2 ^ (-q).toNat % (d * 2 ^ q.toNat) : ℕ) : ℚ) = ((a * 2 ^ (-q).toNat : ℕ) : ℚ) := by
      exact_mod_cast Nat.div_add_mod (a * 2 ^ (-q).toNat) (d * 2 ^ q.toNat)
    rw [eq_sub_of_add_eq' hdivmod, sub_div, mul_div_cancel_left₀ _ hbot', add_sub_cancel, two_zpow_eq]
    push_cast
    field_simp
  have hover : ∀ m, overflows fmt m q = false := fun m => by
    simp only [overflows, Bool.or_eq_false_iff, Bool.and_eq_false_iff, decide_eq_false_iff_not]
    exact ⟨hq.not_gt, .inl hq.ne⟩
  refine ⟨_, ?_, hy ▸ nearby_of_roundsUp mode neg _ (Nat.mod_lt _ hbot)⟩
  rw [roundMag, if_neg (by simp [ha, hd])]
  simp only [hqe, hover, Bool.false_eq_true, if_false]

/-! ### The literal 0.9 -/

/-- `fp(0.9)` is the significand `M` of the format's width, at most half a unit from 0.9 under round to nearest even, and at most one
unit below it under round toward zero and toward minus infinity; a unit is 10 in these integers. -/
structure NineTenths (cfg : Config) (M : ℕ) : Prop where
  fpLit_eq : fpLit cfg cfg.atten = .fin false M (-(fpPrecision cfg.fpFormat : ℤ))
  lt : M < 2 ^ fpPrecision cfg.fpFormat
  le : 10 * M ≤ 9 * 2 ^ fpPrecision cfg.fpFormat + 4
  ge : 9 * 2 ^ fpPrecision cfg.fpFormat ≤ 10 * M + 8
  ge_of_nearest : cfg.fpRounding = .nearestEven → 9 * 2 ^ fpPrecision cfg.fpFormat ≤ 10 * M + 4
  lt_of_directed : cfg.fpRounding ≠ .nearestEven → 10 * M < 9 * 2 ^ fpPrecision cfg.fpFormat

/-- The modes of the statements of R147. -/
def HasClosedForm (mode : Rounding) : Prop := mode = .nearestEven ∨ mode = .towardZero ∨ mode = .towardNegative

theorem fpLit_nineTenths_binary32 {mode : Rounding} (hmode : HasClosedForm mode) :
    roundRatio .binary32 mode 9 10 = .fin false 15099494 (-24) := by
  rcases hmode with rfl | rfl | rfl
  · decide
  · decide
  · decide

theorem fpLit_nineTenths_binary64_nearest : roundRatio .binary64 .nearestEven 9 10 = .fin false 8106479329266893 (-53) := by
  decide

theorem fpLit_nineTenths_binary64_directed {mode : Rounding} (hmode : mode = .towardZero ∨ mode = .towardNegative) :
    roundRatio .binary64 mode 9 10 = .fin false 8106479329266892 (-53) := by
  rcases hmode with rfl | rfl
  · decide
  · decide

theorem exists_nineTenths {cfg : Config} (hatten : cfg.atten = ⟨9, 10⟩) (hmode : HasClosedForm cfg.fpRounding) :
    ∃ M, NineTenths cfg M := by
  obtain ⟨fw, atten, fmt, mode, maxBytes⟩ := cfg
  obtain rfl : atten = ⟨9, 10⟩ := hatten
  cases fmt with
  | binary32 =>
    refine ⟨15099494, fpLit_nineTenths_binary32 hmode, ?_, ?_, ?_, fun _ => ?_, fun _ => ?_⟩
    all_goals norm_num [fpPrecision]
  | binary64 =>
    rcases hmode with rfl | hdirected
    · refine ⟨8106479329266893, fpLit_nineTenths_binary64_nearest, ?_, ?_, ?_, fun _ => ?_, fun hne => absurd rfl hne⟩
      all_goals norm_num [fpPrecision]
    · refine ⟨8106479329266892, fpLit_nineTenths_binary64_directed hdirected, ?_, ?_, ?_, fun hnear => ?_, fun _ => ?_⟩
      case refine_4 => rcases hdirected with rfl | rfl <;> cases hnear
      all_goals norm_num [fpPrecision]

theorem precision_ge (fmt : FpFormat) : (2 : ℚ) ^ 24 ≤ 2 ^ fpPrecision fmt := by
  cases fmt <;> norm_num [fpPrecision]

/-- The literal's value is in [1/2, 1). -/
theorem NineTenths.value_bounds {cfg : Config} {M : ℕ} (hM : NineTenths cfg M) :
    1 / 2 ≤ (M : ℚ) * (2 : ℚ) ^ (-(fpPrecision cfg.fpFormat : ℤ)) ∧
    (M : ℚ) * (2 : ℚ) ^ (-(fpPrecision cfg.fpFormat : ℤ)) < 1 := by
  have hW := precision_ge cfg.fpFormat
  have hWpos : (0 : ℚ) < 2 ^ fpPrecision cfg.fpFormat := by positivity
  have hge : (9 * 2 ^ fpPrecision cfg.fpFormat : ℚ) ≤ 10 * M + 8 := by exact_mod_cast hM.ge
  have hlt : (M : ℚ) < 2 ^ fpPrecision cfg.fpFormat := by exact_mod_cast hM.lt
  rw [zpow_neg, zpow_natCast, ← div_eq_mul_inv, le_div_iff₀ hWpos, div_lt_iff₀ hWpos]
  exact ⟨by linarith, by linarith⟩

/-! ### The attenuated magnitude -/

/-- `m * 2^q` is the attenuated magnitude of a sum of magnitude `a`: the significand `m` is the mode's neighbour of the exact `y`. -/
structure IsAttenuated (cfg : Config) (neg : Bool) (a M m : ℕ) (q : ℤ) (y : ℚ) : Prop where
  near : Nearby cfg.fpRounding neg m y
  ge : 2 ≤ y
  lt : y < 2 ^ fpPrecision cfg.fpFormat
  exact_eq : y * ((2 : ℚ) ^ q * 32768) * 2 ^ fpPrecision cfg.fpFormat = a * M
  exp_ge : -100 ≤ q
  exp_le : q ≤ -23

/-- The product that step 3 rounds, as the ratio that `roundMag` gets. -/
theorem attenuate_eq_roundMag {cfg : Config} {M : ℕ} (hM : NineTenths cfg M) {s1 s2 : Sample} (h : s1.toInt + s2.toInt ≠ 0) :
    ∃ a d, a ≠ 0 ∧ d ≠ 0 ∧
      attenuate cfg (mixSum cfg s1 s2) = roundMag cfg.fpFormat cfg.fpRounding (decide (s1.toInt + s2.toInt < 0)) a d ∧
      (a : ℚ) / d = (s1.toInt + s2.toInt).natAbs * (2 : ℚ) ^ (-15 : ℤ) * (M * (2 : ℚ) ^ (-(fpPrecision cfg.fpFormat : ℤ))) := by
  obtain ⟨hfit, hsum⟩ := mixSum_of_ne_zero cfg h
  obtain ⟨a, d, hd, hround, hval⟩ := fpMul_fin cfg (decide (s1.toInt + s2.toInt < 0)) false _ M _
    (-(fpPrecision cfg.fpFormat : ℤ))
  rw [hfit.scaled] at hval
  have hpos : (0 : ℚ) < (s1.toInt + s2.toInt).natAbs := by exact_mod_cast hfit.1
  have hlit : (0 : ℚ) < M * (2 : ℚ) ^ (-(fpPrecision cfg.fpFormat : ℤ)) := one_half_pos.trans_le hM.value_bounds.1
  refine ⟨a, d, ?_, hd, ?_, hval⟩
  · rintro rfl
    rw [Nat.cast_zero, zero_div] at hval
    exact (mul_pos (mul_pos hpos (by positivity)) hlit).ne hval
  · rw [attenuate, hsum, hM.fpLit_eq, Fp.ofDyadic, hround, Bool.bne_false]

/-- The product that step 3 rounds lies in [2^-16, 2), so its significand has the format's full width (43_sample_mixer.md R143). -/
theorem exists_isAttenuated {cfg : Config} {M : ℕ} (hM : NineTenths cfg M) {s1 s2 : Sample} (h : s1.toInt + s2.toInt ≠ 0) :
    ∃ m q y, attenuate cfg (mixSum cfg s1 s2) = .fin (decide (s1.toInt + s2.toInt < 0)) m q ∧
      IsAttenuated cfg (decide (s1.toInt + s2.toInt < 0)) (s1.toInt + s2.toInt).natAbs M m q y := by
  obtain ⟨a, d, ha, hd, hround, hval⟩ := attenuate_eq_roundMag hM h
  obtain ⟨hlit, hlit'⟩ := hM.value_bounds
  have hsum1 : (1 : ℚ) ≤ (s1.toInt + s2.toInt).natAbs := by exact_mod_cast Int.natAbs_pos.2 h
  have hsum2 : ((s1.toInt + s2.toInt).natAbs : ℚ) ≤ 65536 := by
    have h1 := natAbs_toInt_le s1
    have h2 := natAbs_toInt_le s2
    exact_mod_cast (show (s1.toInt + s2.toInt).natAbs ≤ 65536 by omega)
  have hlo : (2 : ℚ) ^ (-16 : ℤ) ≤ (a : ℚ) / d := by
    calc (2 : ℚ) ^ (-16 : ℤ) = 1 * (2 : ℚ) ^ (-15 : ℤ) * (1 / 2) := by norm_num
      _ ≤ (a : ℚ) / d := by rw [hval]; gcongr
  have hhi : (a : ℚ) / d < (2 : ℚ) ^ (1 : ℤ) := by
    calc (a : ℚ) / d ≤ 65536 * (2 : ℚ) ^ (-15 : ℤ) * (M * (2 : ℚ) ^ (-(fpPrecision cfg.fpFormat : ℤ))) := by rw [hval]; gcongr
      _ < 65536 * (2 : ℚ) ^ (-15 : ℤ) * 1 := by gcongr
      _ = (2 : ℚ) ^ (1 : ℤ) := by norm_num
  obtain ⟨he, he'⟩ := ratioExp_spec a d (Nat.pos_of_ne_zero ha) (Nat.pos_of_ne_zero hd)
  have hexp : ratioExp a d < 1 := two_zpow_lt_iff.1 (he.trans_lt hhi)
  have hexp' : -16 < ratioExp a d + 1 := two_zpow_lt_iff.1 (hlo.trans_lt he')
  have hfmt : 24 ≤ fpPrecision cfg.fpFormat ∧ fpPrecision cfg.fpFormat ≤ 53 ∧ fpMinExp cfg.fpFormat ≤ -126 ∧
      127 ≤ fpMaxExp cfg.fpFormat := by
    cases cfg.fpFormat <;> decide
  have hq : quantumExp cfg.fpFormat (ratioExp a d) = ratioExp a d - (fpPrecision cfg.fpFormat - 1) := by
    rw [quantumExp, max_eq_left (by omega)]
  obtain ⟨m, hm, hnear⟩ := roundMag_nearby cfg.fpFormat cfg.fpRounding (decide (s1.toInt + s2.toInt < 0)) ha hd (by omega)
  rw [hq] at hm hnear
  generalize hqe : ratioExp a d - ((fpPrecision cfg.fpFormat : ℤ) - 1) = q at hm hnear
  have hqpos : (0 : ℚ) < (2 : ℚ) ^ q := by positivity
  refine ⟨m, q, _, hround.trans hm, hnear, ?_, ?_, ?_, by omega, by omega⟩
  · rw [le_div_iff₀ hqpos, ← zpow_one_add₀ two_ne_zero]
    exact (zpow_le_zpow_right₀ one_le_two (by omega)).trans he
  · rw [div_lt_iff₀ hqpos, ← zpow_natCast, ← zpow_add₀ two_ne_zero,
      show (fpPrecision cfg.fpFormat : ℤ) + q = ratioExp a d + 1 by omega]
    exact he'
  · rw [← mul_assoc, div_mul_cancel₀ _ hqpos.ne', hval, zpow_neg _ (fpPrecision cfg.fpFormat : ℤ), zpow_natCast]
    field_simp
    norm_num
    ring

section
variable {cfg : Config} {neg : Bool} {a M m : ℕ} {q : ℤ} {y : ℚ}

theorem IsAttenuated.pos (h : IsAttenuated cfg neg a M m q y) : 0 < m := by
  have hnear := (abs_lt.1 h.near.lt_one).1
  have hge := h.ge
  have : (0 : ℚ) < m := by linarith
  exact_mod_cast this

theorem IsAttenuated.le (h : IsAttenuated cfg neg a M m q y) : m ≤ 2 ^ fpPrecision cfg.fpFormat := by
  have hnear := (abs_lt.1 h.near.lt_one).2
  have hlt := h.lt
  have : (m : ℚ) < 2 ^ fpPrecision cfg.fpFormat + 1 := by linarith
  exact Nat.lt_succ_iff.1 (by exact_mod_cast this)

/-- A unit of the significand, times 32768, is at most 2^-8. -/
theorem IsAttenuated.unit_le (h : IsAttenuated cfg neg a M m q y) : (2 : ℚ) ^ q * 32768 ≤ 1 / 256 := by
  have hle : (2 : ℚ) ^ q ≤ (2 : ℚ) ^ (-23 : ℤ) := zpow_le_zpow_right₀ one_le_two h.exp_le
  calc (2 : ℚ) ^ q * 32768 ≤ (2 : ℚ) ^ (-23 : ℤ) * 32768 := by gcongr
    _ = 1 / 256 := by norm_num

/-- An integer is a whole number of units. -/
theorem IsAttenuated.exists_unit (h : IsAttenuated cfg neg a M m q y) : ∃ k : ℕ, (k : ℚ) * ((2 : ℚ) ^ q * 32768) = 1 := by
  have hq := h.exp_le
  refine ⟨2 ^ (-q - 15).toNat, ?_⟩
  rw [Nat.cast_pow, ← zpow_natCast, Int.toNat_of_nonneg (by omega), Nat.cast_ofNat, ← mul_assoc, ← zpow_add₀ two_ne_zero,
    show -q - 15 + q = -15 by omega]
  norm_num

/-- The exact product, times 32768, is within a hundredth of `9 * a / 10`: the error is that of `fp(0.9)` alone. -/
theorem IsAttenuated.literal_error (h : IsAttenuated cfg neg a M m q y) (hM : NineTenths cfg M) (ha : a ≤ 65536) :
    |y * ((2 : ℚ) ^ q * 32768) - 9 * a / 10| ≤ 1 / 100 := by
  have hW := precision_ge cfg.fpFormat
  have hexact := h.exact_eq
  have ha' : (a : ℚ) ≤ 65536 := by exact_mod_cast ha
  have ha0 : (0 : ℚ) ≤ a := Nat.cast_nonneg a
  have hle : (10 * M : ℚ) ≤ 9 * 2 ^ fpPrecision cfg.fpFormat + 4 := by exact_mod_cast hM.le
  have hge : (9 * 2 ^ fpPrecision cfg.fpFormat : ℚ) ≤ 10 * M + 8 := by exact_mod_cast hM.ge
  generalize (2 : ℚ) ^ fpPrecision cfg.fpFormat = W at hW hexact hle hge
  generalize y * ((2 : ℚ) ^ q * 32768) = x at hexact
  have herror : (x - 9 * a / 10) * (10 * W) = a * (10 * M - 9 * W) := by linear_combination 10 * hexact
  have hW' : (0 : ℚ) < 10 * W := by linarith
  rw [abs_le]
  constructor
  · refine le_of_mul_le_mul_right ?_ hW'
    rw [herror]
    nlinarith
  · refine le_of_mul_le_mul_right ?_ hW'
    rw [herror]
    nlinarith

/-- The attenuated magnitude, times 32768, is within a tenth of `9 * a / 10`. -/
theorem IsAttenuated.close (h : IsAttenuated cfg neg a M m q y) (hM : NineTenths cfg M) (ha : a ≤ 65536) :
    |(m : ℚ) * (2 : ℚ) ^ q * 32768 - 9 * a / 10| < 1 / 10 := by
  have hunit := h.unit_le
  have hpos : (0 : ℚ) < (2 : ℚ) ^ q * 32768 := by positivity
  have hround : |((m : ℚ) - y) * ((2 : ℚ) ^ q * 32768)| < (2 : ℚ) ^ q * 32768 := by
    rw [abs_mul, abs_of_pos hpos]
    exact mul_lt_of_lt_one_left hpos h.near.lt_one
  calc |(m : ℚ) * (2 : ℚ) ^ q * 32768 - 9 * a / 10|
      = |((m : ℚ) - y) * ((2 : ℚ) ^ q * 32768) + (y * ((2 : ℚ) ^ q * 32768) - 9 * a / 10)| := by ring_nf
    _ ≤ |((m : ℚ) - y) * ((2 : ℚ) ^ q * 32768)| + |y * ((2 : ℚ) ^ q * 32768) - 9 * a / 10| := abs_add_le _ _
    _ < 1 / 10 := by
      have hlit := h.literal_error hM ha
      linarith

/-- Where 10 divides the sum, `9 * a / 10` is a whole number `n` of units, and `n` is to the exact significand as 0.9 is to
`fp(0.9)`. -/
theorem IsAttenuated.exists_integer (h : IsAttenuated cfg neg a M m q y) (h10 : 10 ∣ a) :
    ∃ n : ℕ, (n : ℚ) * ((2 : ℚ) ^ q * 32768) = 9 * a / 10 ∧ n * (10 * M : ℚ) = y * (9 * 2 ^ fpPrecision cfg.fpFormat) := by
  obtain ⟨j, rfl⟩ := h10
  obtain ⟨k, hk⟩ := h.exists_unit
  have hexact := h.exact_eq
  have hunit : (2 : ℚ) ^ q * 32768 ≠ 0 := by positivity
  refine ⟨9 * j * k, ?_, mul_right_cancel₀ hunit ?_⟩
  · push_cast
    linear_combination 9 * (j : ℚ) * hk
  · push_cast at hexact ⊢
    linear_combination 90 * (j : ℚ) * M * hk - 9 * hexact

/-- Where 10 divides the sum and the mode does not fall short, the product is exact. -/
theorem IsAttenuated.exact (h : IsAttenuated cfg neg a M m q y) (hM : NineTenths cfg M) (h10 : 10 ∣ a)
    (hmode : cfg.fpRounding = .nearestEven ∨ cfg.fpRounding = .towardNegative ∧ neg = true) :
    (m : ℚ) * (2 : ℚ) ^ q * 32768 = 9 * a / 10 := by
  obtain ⟨n, hn, hprop⟩ := h.exists_integer h10
  have hW := precision_ge cfg.fpFormat
  have hlt := h.lt
  have hy : 0 < y := by linarith [h.ge]
  have hle : (10 * M : ℚ) ≤ 9 * 2 ^ fpPrecision cfg.fpFormat + 4 := by exact_mod_cast hM.le
  have hge : (9 * 2 ^ fpPrecision cfg.fpFormat : ℚ) ≤ 10 * M + 8 := by exact_mod_cast hM.ge
  have hM0 : (0 : ℚ) < 10 * M := by linarith
  have hnm : |(n : ℚ) - m| < 1 := by
    rcases hmode with hnearest | hdown
    · have hge' : (9 * 2 ^ fpPrecision cfg.fpFormat : ℚ) ≤ 10 * M + 4 := by exact_mod_cast hM.ge_of_nearest hnearest
      have hhalf := abs_le.1 (h.near.le_half hnearest)
      have hup : (n : ℚ) - y < 1 / 2 := by
        refine lt_of_mul_lt_mul_right ?_ hM0.le
        rw [sub_mul, hprop]
        nlinarith
      have hdown : -(1 / 2) < (n : ℚ) - y := by
        refine lt_of_mul_lt_mul_right ?_ hM0.le
        rw [sub_mul, hprop]
        nlinarith
      rw [abs_lt]
      constructor <;> linarith
    · have hlt' : (10 * M : ℚ) < 9 * 2 ^ fpPrecision cfg.fpFormat := by
        exact_mod_cast hM.lt_of_directed (by rw [hdown.1]; decide)
      have hm := h.near.ge hdown
      have hm' := abs_lt.1 h.near.lt_one
      have hup : (n : ℚ) - y < 1 := by
        refine lt_of_mul_lt_mul_right ?_ hM0.le
        rw [sub_mul, hprop]
        nlinarith
      have hpos : 0 ≤ (n : ℚ) - y := by
        refine le_of_mul_le_mul_right ?_ hM0
        rw [sub_mul, hprop]
        nlinarith
      rw [abs_lt]
      constructor <;> linarith
  have hmn : (n : ℤ) = m := by
    have : |(n : ℤ) - m| < 1 := by exact_mod_cast hnm
    exact sub_eq_zero.1 (Int.abs_lt_one_iff.1 this)
  rw [← hn, mul_assoc, show (m : ℚ) = n by exact_mod_cast hmn.symm]

/-- Where the mode falls short, the product is below `9 * a / 10`. -/
theorem IsAttenuated.below (h : IsAttenuated cfg neg a M m q y) (hM : NineTenths cfg M)
    (hmode : cfg.fpRounding = .towardZero ∨ cfg.fpRounding = .towardNegative ∧ neg = false) :
    (m : ℚ) * (2 : ℚ) ^ q * 32768 < 9 * a / 10 := by
  have hne : cfg.fpRounding ≠ .nearestEven := by rcases hmode with hz | ⟨hn, -⟩ <;> simp [*]
  have hlt : (10 * M : ℚ) < 9 * 2 ^ fpPrecision cfg.fpFormat := by exact_mod_cast hM.lt_of_directed hne
  have hm := h.near.le hmode
  have hge := h.ge
  have hexact := h.exact_eq
  have hunit : (0 : ℚ) < (2 : ℚ) ^ q * 32768 := by positivity
  have hW : (0 : ℚ) < 2 ^ fpPrecision cfg.fpFormat := by positivity
  have ha : (0 : ℚ) < a := by
    have hprod : (0 : ℚ) < a * M := by
      rw [← hexact]
      exact mul_pos (mul_pos (by linarith) hunit) hW
    exact pos_of_mul_pos_left hprod (Nat.cast_nonneg M)
  have hy : y * ((2 : ℚ) ^ q * 32768) < 9 * a / 10 := by
    refine lt_of_mul_lt_mul_right ?_ hW.le
    rw [hexact]
    nlinarith
  calc (m : ℚ) * (2 : ℚ) ^ q * 32768 = m * ((2 : ℚ) ^ q * 32768) := mul_assoc _ _ _
    _ ≤ y * ((2 : ℚ) ^ q * 32768) := mul_le_mul_of_nonneg_right hm hunit.le
    _ < 9 * a / 10 := hy

end

end Sys2Proof.Machine
end

section
/-! PROOF. The results of SAMPLE_MIX with ATTEN = 0.9 (43_sample_mixer.md R144, R147 to R149), read off from the attenuated magnitude:
the closed integer form and where directed rounding leaves it, the threshold of the clamp, the table of corner cases and the laws. -/

namespace Sys2Proof.Machine

/-- 1 where the mode makes the attenuated magnitude of a value of sign `neg` fall short, 0 where it is exact or nearest. -/
def shortfall : Rounding → Bool → ℕ
  | .towardZero, _ => 1
  | .towardNegative, false => 1
  | .towardNegative, true => 0
  | .nearestEven, _ => 0
  | .nearestAway, _ => 0
  | .towardPositive, _ => 0

theorem shortfall_cases {mode : Rounding} (hmode : HasClosedForm mode) (neg : Bool) :
    (shortfall mode neg = 0 ∧ (mode = .nearestEven ∨ mode = .towardNegative ∧ neg = true)) ∨
    (shortfall mode neg = 1 ∧ (mode = .towardZero ∨ mode = .towardNegative ∧ neg = false)) := by
  rcases hmode with rfl | rfl | rfl <;> cases neg <;> simp [shortfall]

/-- A unit less reaches another quotient by 10 only at a multiple of 10. -/
theorem nine_mul_sub_div_ten {a f : ℕ} (hf : f ≤ 1) (h10 : ¬ 10 ∣ a) : (9 * a - f) / 10 = 9 * a / 10 := by
  have hmod : 9 * a % 10 ≠ 0 := by omega
  omega

/-- The integer part of the attenuated magnitude, times 32768. -/
theorem IsAttenuated.floor {cfg : Config} {neg : Bool} {a M m : ℕ} {q : ℤ} {y : ℚ} (h : IsAttenuated cfg neg a M m q y)
    (hM : NineTenths cfg M) (hmode : HasClosedForm cfg.fpRounding) (ha : a ≤ 65536) :
    (((9 * a - shortfall cfg.fpRounding neg) / 10 : ℕ) : ℚ) ≤ m * (2 : ℚ) ^ q * 32768 ∧
    m * (2 : ℚ) ^ q * 32768 < ((9 * a - shortfall cfg.fpRounding neg) / 10 : ℕ) + 1 := by
  obtain ⟨hlo, hhi⟩ := abs_lt.1 (h.close hM ha)
  by_cases h10 : 10 ∣ a
  · obtain ⟨j, rfl⟩ := id h10
    rcases shortfall_cases hmode neg with ⟨hf, hexact⟩ | ⟨hf, hbelow⟩
    · have hfloor : (9 * (10 * j) - 0) / 10 = 9 * j := by omega
      rw [hf, hfloor, h.exact hM h10 hexact]
      push_cast
      exact ⟨by linarith, by linarith⟩
    · have hlt := h.below hM hbelow
      have hpos : (0 : ℚ) < m := by exact_mod_cast h.pos
      have hj : (0 : ℚ) < j := by
        have hprod : (0 : ℚ) < m * (2 : ℚ) ^ q * 32768 := by positivity
        push_cast at hlt
        linarith
      have hfloor : (9 * (10 * j) - 1) / 10 + 1 = 9 * j := by
        have : 0 < j := by exact_mod_cast hj
        omega
      have hfloor' : (((9 * (10 * j) - 1) / 10 : ℕ) : ℚ) + 1 = 9 * j := by exact_mod_cast hfloor
      rw [hf]
      push_cast at hlo hlt
      exact ⟨by linarith, by linarith⟩
  · have hf : shortfall cfg.fpRounding neg ≤ 1 := by
      rcases shortfall_cases hmode neg with ⟨hf, -⟩ | ⟨hf, -⟩ <;> omega
    rw [nine_mul_sub_div_ten hf h10]
    have hbounds : 10 * (9 * a / 10) + 1 ≤ 9 * a ∧ 9 * a ≤ 10 * (9 * a / 10) + 9 := by
      have hmod : 9 * a % 10 ≠ 0 := by omega
      omega
    have h1 : (10 * (9 * a / 10 : ℕ) + 1 : ℚ) ≤ 9 * a := by exact_mod_cast hbounds.1
    have h2 : (9 * a : ℚ) ≤ 10 * (9 * a / 10 : ℕ) + 9 := by exact_mod_cast hbounds.2
    exact ⟨by linarith, by linarith⟩

theorem natAbs_sum_le (s1 s2 : Sample) : (s1.toInt + s2.toInt).natAbs ≤ 65536 := by
  have h1 := natAbs_toInt_le s1
  have h2 := natAbs_toInt_le s2
  omega

/-- SAMPLE_MIX in integers, in every mode R147 speaks of. -/
theorem sampleMix_toInt_eq {cfg : Config} (hatten : cfg.atten = ⟨9, 10⟩) (hmode : HasClosedForm cfg.fpRounding) (s1 s2 : Sample) :
    (sampleMix cfg s1 s2).toInt =
      clampInt (if s1.toInt + s2.toInt < 0
        then -(((9 * (s1.toInt + s2.toInt).natAbs - shortfall cfg.fpRounding true) / 10 : ℕ) : ℤ)
        else ((9 * (s1.toInt + s2.toInt).natAbs - shortfall cfg.fpRounding false) / 10 : ℕ)) (-32768) 32767 := by
  obtain ⟨M, hM⟩ := exists_nineTenths hatten hmode
  rw [sampleMix_toInt]
  by_cases h0 : s1.toInt + s2.toInt = 0
  · rw [sampleMixInt_of_sum_zero cfg h0, hM.fpLit_eq, h0]
    simp [clampInt, Fp.isFinite]
  · obtain ⟨m, q, y, hatt, hm⟩ := exists_isAttenuated hM h0
    obtain ⟨hlo, hhi⟩ := hm.floor hM hmode (natAbs_sum_le s1 s2)
    rw [sampleMixInt, hatt, toInt16_of_fin cfg hm.pos hm.le hm.exp_ge (by linarith [hm.exp_le]) hlo hhi]
    by_cases hneg : s1.toInt + s2.toInt < 0 <;> simp [hneg]

/-- Division toward zero by the sign of the sum (00_scope.md R9). -/
theorem nine_mul_tdiv_ten (sum : ℤ) : (9 * sum).tdiv 10 = if sum < 0 then -(9 * -sum / 10) else 9 * sum / 10 := by
  split_ifs with hneg
  · rw [← Int.tdiv_eq_ediv_of_nonneg (by omega), ← Int.neg_tdiv]
    congr 1
    ring
  · exact Int.tdiv_eq_ediv_of_nonneg (by omega)

theorem closedForm_eq (sum : ℤ) : closedForm sum =
    if sum < 0 then max (-(9 * -sum / 10)) (-32768) else min (9 * sum / 10) 32767 := by
  rw [closedForm, tquot, nine_mul_tdiv_ten, clampInt]
  split_ifs <;> omega

/-- The closed form, for round to nearest even (43_sample_mixer.md R147). -/
theorem sampleMix_toInt_eq_closedForm {cfg : Config} (h : specArithmetic cfg) (s1 s2 : Sample) :
    (sampleMix cfg s1 s2).toInt = closedForm (s1.toInt + s2.toInt) := by
  obtain ⟨hatten, hmode⟩ := h
  rw [sampleMix_toInt_eq hatten (.inl hmode), closedForm_eq, hmode]
  simp only [shortfall, clampInt]
  split_ifs <;> omega

/-- Settles O40: the statement is `closedForm` written out. -/
theorem sampleMixClosedForm : Obligations.SampleMixClosedForm :=
  fun _ s1 s2 h => sampleMix_toInt_eq_closedForm h s1 s2

/-- A shortfall reaches the quotient by 10 exactly at the nonzero multiples of 10. -/
theorem nine_mul_sub_one_div_ten (a : ℕ) :
    (9 * a - 1) / 10 = if a % 10 = 0 ∧ a ≠ 0 then 9 * (a / 10) - 1 else 9 * a / 10 := by
  split_ifs with h
  · omega
  · by_cases h10 : 10 ∣ a
    · obtain rfl : a = 0 := by omega
      rfl
    · exact nine_mul_sub_div_ten le_rfl h10

/-- Settles O42: the shortfall reaches the result exactly where 10 divides a nonzero sum that neither form clamps. -/
theorem directedRoundingDiffersExactlyThere : Obligations.DirectedRoundingDiffersExactlyThere := by
  intro cfg s1 s2 hatten
  refine ⟨fun hmode => ?_, fun hmode => ?_⟩
  · rw [sampleMix_toInt_eq hatten (.inr (.inl hmode)), closedForm_eq, hmode]
    simp only [shortfall, clampInt, nine_mul_sub_one_div_ten]
    split_ifs <;> omega
  · rw [sampleMix_toInt_eq hatten (.inr (.inr hmode)), closedForm_eq, hmode]
    simp only [shortfall, clampInt, nine_mul_sub_one_div_ten]
    split_ifs <;> omega

/-! ### The clamp's threshold -/

/-- The attenuated sum, times 32768, is within a tenth of `9 * sum / 10`. -/
theorem attenuate_close {cfg : Config} (h : specArithmetic cfg) (s1 s2 : Sample) :
    ∃ v : ℚ, (attenuate cfg (mixSum cfg s1 s2)).Holds v ∧
      |v * 32768 - 9 * ((s1.toInt + s2.toInt : ℤ) : ℚ) / 10| < 1 / 10 := by
  obtain ⟨M, hM⟩ := exists_nineTenths h.1 (.inl h.2)
  by_cases h0 : s1.toInt + s2.toInt = 0
  · obtain ⟨neg, hzero⟩ := mixSum_of_eq_zero cfg h0
    rw [attenuate, hzero, hM.fpLit_eq, fpMul_zero, h0]
    exact ⟨0, Fp.holds_zero _ _, by norm_num⟩
  · obtain ⟨m, q, y, hatt, hm⟩ := exists_isAttenuated hM h0
    have hclose := hm.close hM (natAbs_sum_le s1 s2)
    rw [hatt]
    refine ⟨_, Fp.holds_fin _ _ _, ?_⟩
    rw [← abs_signed_eq (decide (s1.toInt + s2.toInt < 0)), signed_eq_mul] at hclose
    rw [← signed_natAbs, signed_eq_mul, signed_eq_mul (decide _) ((s1.toInt + s2.toInt).natAbs : ℚ)]
    convert hclose using 2
    ring

/-- Settles O43: sums are integers, and `9 * 36408 / 10` and `9 * 36409 / 10` lie on either side of 32768, each by more than a tenth. -/
theorem clampTakesEffectFromThreshold : Obligations.ClampTakesEffectFromThreshold := by
  intro cfg s1 s2 h
  obtain ⟨v, hv, hclose⟩ := attenuate_close h s1 s2
  rw [fpLt_iff (clipHi_holds cfg) hv, fpLt_iff hv (clipLo_holds cfg)]
  generalize s1.toInt + s2.toInt = sum at hclose
  obtain ⟨hlo, hhi⟩ := abs_lt.1 hclose
  refine ⟨⟨fun hgt => ?_, fun hge => ?_⟩, ⟨fun hlt => ?_, fun hle => ?_⟩⟩
  · have : (36408 : ℚ) < sum := by linarith
    exact Int.add_one_le_iff.2 (by exact_mod_cast this)
  · have : (36409 : ℚ) ≤ sum := by exact_mod_cast hge
    linarith
  · have : (sum : ℚ) < -36408 := by linarith
    have : sum < -36408 := by exact_mod_cast this
    omega
  · have : (sum : ℚ) ≤ -36409 := by exact_mod_cast hle
    linarith

/-! ### Corner cases and laws -/

/-- Settles O44: each row is the closed form at that sum. -/
theorem sampleMixCornerCases : Obligations.SampleMixCornerCases := by
  intro cfg s1 s2 h
  simp only [sampleMix_toInt_eq_closedForm h, closedForm_eq]
  generalize s1.toInt + s2.toInt = sum
  refine ⟨?_, ?_, ?_, ?_, ?_, ?_, ?_, ?_, ?_, ?_, ?_, ?_, ?_⟩ <;> split_ifs <;> omega

theorem closedForm_mono {s t : ℤ} (h : s ≤ t) : closedForm s ≤ closedForm t := by
  rw [closedForm_eq, closedForm_eq]
  split_ifs <;> omega

/-- Settles O45: the laws are those of the closed form. -/
theorem sampleMixLaws : Obligations.SampleMixLaws := by
  intro cfg h
  have hform := sampleMix_toInt_eq_closedForm h
  refine ⟨sampleMix_comm cfg, ⟨⟨0x8000#16, 0x8000#16, ?_⟩, 0x7FFF#16, 0x7FFF#16, ?_⟩, fun s => ?_, fun s1 s2 t1 t2 hle => ?_,
    fun s1 s2 t1 t2 hneg hpos => ⟨fun hsmall => ?_, fun hlarge => ?_⟩, ?_, ?_⟩
  · rw [hform]
    decide
  · rw [hform]
    decide
  · have hle := natAbs_toInt_le s
    have hlt := BitVec.toInt_lt (x := s)
    norm_num at hlt
    rw [hform, closedForm_eq, nine_mul_tdiv_ten, BitVec.toInt_zero, Int.add_zero]
    split_ifs <;> omega
  · rw [hform, hform]
    exact closedForm_mono hle
  · rw [hform, hform, hneg, closedForm_eq, closedForm_eq]
    split_ifs <;> omega
  · rw [hform, hform, hneg, closedForm_eq, closedForm_eq]
    split_ifs <;> omega
  · rw [hform, hform]
    decide
  · rw [hform, hform]
    decide

end Sys2Proof.Machine
end

section
/-! PROOF. The laws of `mix_f` (44_driver.md R167; 42_frame_mixer.md R134, R135; 30_encoding.md R64): its length, the bytes it holds
whatever the frame width, its symmetry, and that a dangling byte of an input does not reach it. -/

namespace Sys2Proof.Machine

/-- Settles O56: two bytes for each sample of each complete frame. -/
theorem outputLengthLaw : Obligations.OutputLengthLaw := by
  intro cfg a b
  have hlen : (mixF cfg a b).length = 2 * (max a.length b.length / 2 / cfg.fw * cfg.fw) := by
    rw [mixF_length, callFrames, callSamples_length_fst]
  exact ⟨hlen, hlen ▸ Nat.mul_mod_right _ _⟩

/-- Encoding a longer sequence only appends bytes. -/
theorem encodeSeq_append (ss ts : List Sample) : encodeSeq (ss ++ ts) = encodeSeq ss ++ encodeSeq ts := by
  induction ss with
  | nil => rfl
  | cons s ss ih => simp only [List.cons_append, encodeSeq, ih]

/-- With a second frame width that mixes no fewer samples, the output begins with the first one's: no sample depends on FW. -/
theorem mixF_prefix (cfg : Config) (w : Nat) (a b : List Byte)
    (hle : callFrames cfg a b * cfg.fw ≤ callFrames { cfg with fw := w } a b * w) :
    mixF cfg a b <+: mixF { cfg with fw := w } a b := by
  have hsample : mixedAt { cfg with fw := w } = mixedAt cfg := rfl
  rw [mixF, mixF, hsample]
  show encodeSeq _ <+: encodeSeq ((List.range (callFrames { cfg with fw := w } a b * w)).map _)
  rw [← Nat.add_sub_cancel' hle, List.range_add, List.map_append, encodeSeq_append]
  exact List.prefix_append _ _

/-- Settles O57: the shorter output begins the longer one. -/
theorem frameWidthChangesOnlyTheLength : Obligations.FrameWidthChangesOnlyTheLength := by
  intro cfg w a b j hj hj'
  rw [List.getElem?_eq_getElem hj, List.getElem?_eq_getElem hj', Option.some_inj]
  rcases Nat.le_total (callFrames cfg a b * cfg.fw) (callFrames { cfg with fw := w } a b * w) with hle | hle
  · exact (mixF_prefix cfg w a b hle).getElem hj
  · exact ((mixF_prefix { cfg with fw := w } cfg.fw a b hle).getElem hj').symm

theorem callSamples_swap (a b : List Byte) : callSamples b a = ((callSamples a b).2, (callSamples a b).1) :=
  reconcile_swap _ _

/-- Settles O58: swapping the inputs swaps the two sequences, which have one length, and SAMPLE_MIX is symmetric. -/
theorem mixIsSymmetric : Obligations.MixIsSymmetric := by
  intro cfg a b
  have hframes : callFrames cfg a b = callFrames cfg b a := by
    rw [callFrames, callFrames, callSamples_swap a b, callSamples_length_snd]
  have hsample : mixedAt cfg (callSamples a b).1 (callSamples a b).2 = mixedAt cfg (callSamples b a).1 (callSamples b a).2 := by
    funext k
    rw [callSamples_swap a b]
    exact sampleMix_comm cfg _ _
  rw [mixF, mixF, hframes, hsample]

/-- Settles O59: the two inputs decode to one sequence. -/
theorem danglingByteHasNoInfluence : Obligations.DanglingByteHasNoInfluence := by
  intro cfg a b x ha
  have hsamples : callSamples (a ++ [x]) b = callSamples a b := by
    rw [callSamples, decodeBuf_append_singleton a x ha, callSamples]
  rw [mixF, callFrames, hsamples, mixF, callFrames]

end Sys2Proof.Machine
end
